-- ==== Sys2Proof/Word.lean ====
section
/-! DEFINITION. The word types (00_scope.md R8, R10, R11): everything the engine computes on is an unsigned bit vector, and
arithmetic on words is modulo 2^32. -/

namespace Sys2Proof

/-- A register, a table entry, a round key: 32 bits (R8). Bit 0 is the least significant bit (R10). -/
abbrev Word := BitVec 32

/-- An S-box entry, and the LEN operand of a command: 8 bits (R8, R93). -/
abbrev Byte := BitVec 8

/-- A block of 16 bytes, as its four big-endian words, word 0 first (R8, R14). -/
abbrev Block := Vector Word 4

end Sys2Proof
end

