-- ==== Sys2Proof/Syntax.lean ====
section
/-! DEFINITION. The commands (30_encoding.md R92, R93): one constructor per row of the opcode table. LEN is the only operand. -/

namespace Sys2Proof

/-- A command of the engine (R92). `len` is LEN, a length in bytes, an unsigned 8-bit number (R93). -/
inductive Instr where
  /-- GENTAB: generate the diffusion tables (R94, R123). No operand: its LEN field is 0. -/
  | gentab
  /-- DERIVE LEN: derive the round keys from MK (R95, R143). -/
  | derive (len : Byte)
  /-- ENCB LEN: encrypt the batch in BIN (R96, R167). -/
  | encb (len : Byte)
  /-- DECB LEN: decrypt the batch in BIN (R97, R168). -/
  | decb (len : Byte)
deriving DecidableEq, Repr

end Sys2Proof
end

