-- ==== Sys2Proof/Decode.lean ====
section
/-! DEFINITION. The command word (30_encoding.md R90–R99): its fields, the decoder, total on all 2^32 words, and after it the
encoder. -/

namespace Sys2Proof

/-- OP, bits 3:0 (R91). -/
def opField (w : Word) : BitVec 4 := w.extractLsb' 0 4

/-- RSV0, bits 7:4 (R91). -/
def rsv0Field (w : Word) : BitVec 4 := w.extractLsb' 4 4

/-- LEN, bits 15:8 (R91, R93). -/
def lenField (w : Word) : Byte := w.extractLsb' 8 8

/-- RSV1, bits 31:16 (R91). -/
def rsv1Field (w : Word) : BitVec 16 := w.extractLsb' 16 16

/-- Why a word is illegal (R98). The engine reports all three with ILLEGAL_COMMAND (R205). -/
inductive DecodeError where
  /-- RSV0 or RSV1 is not 0. -/
  | reservedField
  /-- OP is 0x0 or 0x5..0xF. -/
  | reservedOpcode
  /-- OP is GENTAB's and LEN is not 0. -/
  | gentabWithLength
deriving DecidableEq, Repr

/-- The decode function of R99. -/
def decode (w : Word) : Except DecodeError Instr :=
  if rsv1Field w ≠ 0 ∨ rsv0Field w ≠ 0 then .error .reservedField
  else if opField w = 0x1 then
    if lenField w = 0 then .ok .gentab else .error .gentabWithLength
  else if opField w = 0x2 then .ok (.derive (lenField w))
  else if opField w = 0x3 then .ok (.encb (lenField w))
  else if opField w = 0x4 then .ok (.decb (lenField w))
  else .error .reservedOpcode

/-- A word with the reserved fields 0 (the diagram of R91). -/
def commandWord (op : BitVec 4) (len : Byte) : Word := 0#16 ++ len ++ 0#4 ++ op

/-- The encoding of each command (R94–R97). -/
def encode : Instr → Word
  | .gentab => commandWord 0x1 0
  | .derive len => commandWord 0x2 len
  | .encb len => commandWord 0x3 len
  | .decb len => commandWord 0x4 len

/-- What the decoder reads from an instruction of the opcode table whose first `nbits` bits are those of `w` and whose further
bits are 0. A command is one 32-bit word (R90): nothing longer is one. -/
def decodeTableWord (nbits w : Nat) : Option Instr :=
  if w % 2 ^ nbits < 2 ^ 32 then (decode (BitVec.ofNat 32 (w % 2 ^ nbits))).toOption else none

end Sys2Proof
end

