-- ==== Sys2Proof/Config.lean ====
section
/-! DEFINITION. What the spec fixes as parameters (00_scope.md R8), and its open values (R9, 93_implementation_defined.md I1–I4,
I9). An open value is a constant with no body: no proof can see what it is. -/

namespace Sys2Proof.Config

/-- The window's size in bytes: 8 KiB (R61). -/
def windowSize : Nat := 0x2000

/-- LANE_WIDTH, the lanes of a batch (R8). -/
def laneWidth : Nat := 8

/-- The value an unspecified read returns, one for each engine, named by its ENGINE_BASE, and each draw of it (R64, R70, R83; I1–I3).
DESIGN CHOICE (log 5): a value is fresh because its engine or its draw is another; two engines given one base share their values. -/
opaque freeWord (base draw : Nat) : Word

/-- What lane register `j` (0..3) of lane `b` holds after an ENCB or DECB, for each engine and draw (R39, I4; log 4). -/
opaque freeLaneWord (base draw j b : Nat) : Word

/-- What the round counter holds after an ENCB or DECB, for each engine and draw (R39, I4; log 4). -/
opaque freeRound (base draw : Nat) : Fin 32

/-- LAT_GENTAB (R9, R256), as the number of host turns that may pass before completion, one for each engine and draw (log 6). It may
depend on the key, the round keys, the input and the output of the engine (R267). -/
opaque latGentab (base draw : Nat) (mk : Block) (rk : Vector Word 32) (bin bout : Vector Block 8) : Nat

/-- LAT_DERIVE, as `latGentab`. -/
opaque latDerive (base draw : Nat) (mk : Block) (rk : Vector Word 32) (bin bout : Vector Block 8) : Nat

/-- LAT_CIPHER, the latency of ENCB and DECB, as `latGentab`. It may differ between the two, and by LEN. -/
opaque latCipher (i : Instr) (base draw : Nat) (mk : Block) (rk : Vector Word 32) (bin bout : Vector Block 8) : Nat

end Sys2Proof.Config
end

