-- ==== Sys2Proof/Machine/State.lean ====
section
/-! DEFINITION. The state of one engine (10_state.md R20), the inputs from outside it, the reasons a step can stop, and the state
after reset (R41). -/

namespace Sys2Proof.Machine

/-- The errors of 60_exceptions.md R201, codes 1 to 6. -/
inductive ErrorCode where
  | illegalCommand
  | uninitializedTables
  | invalidKeyLength
  | invalidBlockCount
  | uninitializedKeys
  | busyViolation
deriving DecidableEq, Repr

/-- The fields of STATUS (R24). Its reserved bits are hard-wired to 0 and have no storage (R30; log 11). -/
structure Status where
  /-- BUSY, bit 0 (R25). -/
  busy : Bool
  /-- TABLES_VALID, bit 1 (R26). -/
  tablesValid : Bool
  /-- KEYS_VALID, bit 2 (R27). -/
  keysValid : Bool
  /-- ERRCODE, bits 6:4 (R28). -/
  errcode : BitVec 3
  /-- STICKY[6:1], bits 13:8: bit k-1 of this vector is STICKY[k] (R29). -/
  sticky : BitVec 6
deriving DecidableEq, Repr

/-- The table store (R36). -/
structure Tables where
  t0 : Vector Word 256
  t1 : Vector Word 256
  t2 : Vector Word 256
  t3 : Vector Word 256
deriving DecidableEq, Repr

/-- The lane state registers X0[b]..X3[b], b = 0..7 (R39). -/
structure Lanes where
  x0 : Vector Word 8
  x1 : Vector Word 8
  x2 : Vector Word 8
  x3 : Vector Word 8
deriving DecidableEq, Repr

/-- The state of one engine instance (R20), the constant ROMs apart (Machine/Rom.lean). -/
structure Engine where
  /-- CMD: the last word stored (R23). -/
  cmd : Word
  status : Status
  /-- MK[0..3], the master key (R31). -/
  masterKey : Block
  /-- RK[0..31], the round keys (R32). -/
  rk : Vector Word 32
  /-- BIN[b][j], the input batch (R33). -/
  bin : Vector Block 8
  /-- BOUT[b][j], the output batch (R34). -/
  bout : Vector Block 8
  tables : Tables
  /-- The pending-command latch: opcode and LEN of the accepted command (R38). -/
  latch : Option Instr
  lanes : Lanes
  /-- The round counter (R39). -/
  round : Fin 32
deriving DecidableEq, Repr

/-- Whether a host access reads or writes, and what it writes. -/
inductive AccessKind where
  | read
  | write (v : Word)
deriving DecidableEq, Repr

/-- A host access: an address in the host's address space, a width in bits, a direction (20_memory.md R61, R63; log 8). -/
structure HostAccess where
  addr : Nat
  width : Nat
  kind : AccessKind
deriving DecidableEq, Repr

/-- What the outside does to the engine (R16, R101, R240). -/
inductive Input where
  /-- One host access. -/
  | access (a : HostAccess)
  /-- POLL of R101: read STATUS until BUSY is 0. -/
  | poll
  /-- The reset input (R240). -/
  | reset
deriving DecidableEq, Repr

/-- The response to a host access (R63, R64, R84, R213). -/
inductive BusResponse where
  /-- An admitted read: the value. -/
  | data (v : Word)
  /-- An admitted write, dropped or not. -/
  | done
  /-- An access the window does not admittedReg. -/
  | busError
  /-- An access outside the window, which the engine does not decode (R61; log 8). -/
  | notDecoded
deriving DecidableEq, Repr

/-- The engine and what the model keeps beside it. -/
structure State where
  engine : Engine
  /-- ENGINE_BASE, a parameter of the platform that no step changes (R9, R61; log 1). -/
  engineBase : Nat
  /-- The model's own: host turns left before a running command completes (R256; log 6). -/
  delay : Nat
  /-- The model's own: how many free values have been drawn (R83; log 5). -/
  draws : Nat
  /-- The model's own: what the outside does next, oldest first (log 7). -/
  inputs : List Input
  /-- The model's own: the responses the host has received, newest first (R257; log 7). -/
  responses : List BusResponse
deriving DecidableEq, Repr

/-- Why the machine stops. -/
inductive Fault where
  /-- Raised by the completion step alone: BUSY is 1 and the latch is empty, which R38 rules out and no run reaches. Safe: no
  claim about the hardware rests on what follows (log 12). -/
  | busyWithoutCommand
deriving DecidableEq, Repr

/-- Why an instruction has no meaning here. -/
inductive Refusal where
  /-- Raised by an arm of `exec` for an instruction without a meaning; no arm raises it. Safe. -/
  | notModelled (mnemonic : String)
deriving DecidableEq, Repr

/-- STATUS after reset (R41). -/
def Status.reset : Status :=
  { busy := false, tablesValid := false, keysValid := false, errcode := 0, sticky := 0 }

/-- The engine after reset (R41). The spec leaves RK, the tables, the lane registers and the round counter unspecified there: 0 is
this model's choice (DESIGN CHOICE, logs 2, 3 and 4). -/
def Engine.reset : Engine where
  cmd := 0
  status := Status.reset
  masterKey := Vector.replicate 4 0
  rk := Vector.replicate 32 0
  bin := Vector.replicate 8 (Vector.replicate 4 0)
  bout := Vector.replicate 8 (Vector.replicate 4 0)
  tables :=
    { t0 := Vector.replicate 256 0, t1 := Vector.replicate 256 0, t2 := Vector.replicate 256 0, t3 := Vector.replicate 256 0 }
  latch := none
  lanes :=
    { x0 := Vector.replicate 8 0, x1 := Vector.replicate 8 0, x2 := Vector.replicate 8 0, x3 := Vector.replicate 8 0 }
  round := 0

/-- The machine right after reset, with nothing done to it yet (R41, R242). ENGINE_BASE is open: 0 here is a DESIGN CHOICE
(log 1), and so are the model's own counters (logs 5 and 6). -/
def State.reset : State where
  engine := Engine.reset
  engineBase := 0
  delay := 0
  draws := 0
  inputs := []
  responses := []

end Sys2Proof.Machine
end

