-- ==== Sys2Proof/Machine/Flags.lean ====
section
/-! DEFINITION. STATUS: its word (10_state.md R24) and every event that changes its fields (R25–R30, R42; 60_exceptions.md R201–R203,
R210, R212). -/

namespace Sys2Proof.Machine

/-- The code of an error (R201). -/
def ErrorCode.code : ErrorCode → BitVec 3
  | .illegalCommand => 1
  | .uninitializedTables => 2
  | .invalidKeyLength => 3
  | .invalidBlockCount => 4
  | .uninitializedKeys => 5
  | .busyViolation => 6

/-- STICKY[k] alone, k the code of an error; STICKY[k] is bit k-1 of the field (R29). -/
def ErrorCode.stickyBit (e : ErrorCode) : BitVec 6 := 1#6 <<< (e.code.toNat - 1)

/-- STATUS as a word (R24): bits 31:14, 7 and 3 read as 0 (R30). -/
def Status.word (f : Status) : Word :=
  0#18 ++ f.sticky ++ 0#1 ++ f.errcode ++ 0#1 ++ BitVec.ofBool f.keysValid ++ BitVec.ofBool f.tablesValid ++ BitVec.ofBool f.busy

/-- Acceptance: ERRCODE <- 0, BUSY <- 1 (R203). -/
def Status.accepted (f : Status) : Status := { f with errcode := 0, busy := true }

/-- Rejection with code e: ERRCODE <- e, STICKY[e] <- 1 (R202). -/
def Status.rejected (e : ErrorCode) (f : Status) : Status := { f with errcode := e.code, sticky := f.sticky ||| e.stickyBit }

/-- A dropped write: STICKY[6] <- 1 (R84, R210). -/
def Status.dropped (f : Status) : Status := { f with sticky := f.sticky ||| ErrorCode.busyViolation.stickyBit }

/-- A host write of v to STATUS: each STICKY bit written with 1 is cleared, nothing else changes (R29, R30, R65). -/
def Status.cleared (v : Word) (f : Status) : Status := { f with sticky := f.sticky &&& ~~~(v.extractLsb' 8 6) }

/-- Completion: BUSY <- 0 (R25, R255). -/
def Status.completed (f : Status) : Status := { f with busy := false }

end Sys2Proof.Machine
end

