-- ==== Sys2Proof/Machine/Operands.lean ====
section
/-! DEFINITION. The operand LEN (30_encoding.md R93; 60_exceptions.md R204, R207, R208), the byte order of blocks and keys
(00_scope.md R14), and the registers a window offset names (20_memory.md R62, R63). -/

namespace Sys2Proof.Machine

/-- DERIVE's check of LEN: the key is 16 bytes long (R207). -/
def keyLengthOk (len : Byte) : Bool := len == 16

/-- ENCB's and DECB's check of LEN: not 0, a multiple of 16, at most 128 (R208). -/
def batchLengthOk (len : Byte) : Bool := !(len.toNat == 0 || len.toNat % 16 != 0 || len.toNat > 128)

/-- N, the number of active lanes (R166). -/
def blockCount (len : Byte) : Nat := len.toNat / 16

/-- A big-endian word of four wire bytes (R14). -/
def wordOfBytes (b0 b1 b2 b3 : Byte) : Word := b0 ++ b1 ++ b2 ++ b3

/-- The four words of 16 wire bytes, a key or a block (R14, R67, R68). -/
def blockOfBytes (b : Vector Byte 16) : Block :=
  Vector.ofFn fun j : Fin 4 =>
    wordOfBytes (b[4 * j.val]'(by omega)) (b[4 * j.val + 1]'(by omega)) (b[4 * j.val + 2]'(by omega)) (b[4 * j.val + 3]'(by omega))

/-- Word j of a 128-bit value in wire order, whose wire byte 0 is bits 127..120: bits 127-32j down to 96-32j (R101). -/
def wireWord (p : BitVec 128) (j : Nat) : Word := p.extractLsb' (96 - 32 * j) 32

/-- The four words of a 128-bit value in wire order (R14, R101). -/
def wireWords (p : BitVec 128) : Block := #v[wireWord p 0, wireWord p 1, wireWord p 2, wireWord p 3]

/-- The 128-bit value in wire order whose word j is w[j]: c[127-32j:96-32j] <- w[j] for each j (R101). -/
def wireBlock (w : Block) : BitVec 128 := w[0] ++ w[1] ++ w[2] ++ w[3]

/-- A register of the window (R62). -/
inductive Reg where
  | cmd
  | status
  | mk (j : Fin 4)
  | rk (i : Fin 32)
  | bin (b : Fin 8) (j : Fin 4)
  | bout (b : Fin 8) (j : Fin 4)
  | sbox (i : Fin 256)
  | t0 (i : Fin 256)
  | t1 (i : Fin 256)
  | t2 (i : Fin 256)
  | t3 (i : Fin 256)
deriving DecidableEq, Repr

/-- The register at a window offset that is a multiple of 4 (R62); none at a reserved offset (R66) or beyond the window. -/
def regAt (off : Nat) : Option Reg :=
  if off < 0x0004 then some .cmd
  else if off < 0x0008 then some .status
  else if off < 0x0010 then none
  else if off < 0x0020 then some (.mk (.ofNat 4 ((off - 0x0010) / 4)))
  else if off < 0x0080 then none
  else if off < 0x0100 then some (.rk (.ofNat 32 ((off - 0x0080) / 4)))
  else if off < 0x0180 then some (.bin (.ofNat 8 ((off - 0x0100) / 16)) (.ofNat 4 ((off - 0x0100) % 16 / 4)))
  else if off < 0x0200 then some (.bout (.ofNat 8 ((off - 0x0180) / 16)) (.ofNat 4 ((off - 0x0180) % 16 / 4)))
  else if off < 0x0400 then none
  else if off < 0x0800 then some (.sbox (.ofNat 256 ((off - 0x0400) / 4)))
  else if off < 0x1000 then none
  else if off < 0x1400 then some (.t0 (.ofNat 256 ((off - 0x1000) / 4)))
  else if off < 0x1800 then some (.t1 (.ofNat 256 ((off - 0x1400) / 4)))
  else if off < 0x1C00 then some (.t2 (.ofNat 256 ((off - 0x1800) / 4)))
  else if off < 0x2000 then some (.t3 (.ofNat 256 ((off - 0x1C00) / 4)))
  else none

/-- The offset of a register (the first column of R62). -/
def Reg.offset : Reg → Nat
  | .cmd => 0x0000
  | .status => 0x0004
  | .mk j => 0x0010 + 4 * j.val
  | .rk i => 0x0080 + 4 * i.val
  | .bin b j => 0x0100 + 16 * b.val + 4 * j.val
  | .bout b j => 0x0180 + 16 * b.val + 4 * j.val
  | .sbox i => 0x0400 + 4 * i.val
  | .t0 i => 0x1000 + 4 * i.val
  | .t1 i => 0x1400 + 4 * i.val
  | .t2 i => 0x1800 + 4 * i.val
  | .t3 i => 0x1C00 + 4 * i.val

/-- Registers whose access is RW or R/W1C (R62). -/
def Reg.writable : Reg → Bool
  | .cmd | .status | .mk _ | .bin _ _ => true
  | .rk _ | .bout _ _ | .sbox _ | .t0 _ | .t1 _ | .t2 _ | .t3 _ => false

/-- An entry of T0..T3 (R36). -/
def Reg.isTable : Reg → Bool
  | .t0 _ | .t1 _ | .t2 _ | .t3 _ => true
  | .cmd | .status | .mk _ | .rk _ | .bin _ _ | .bout _ _ | .sbox _ => false

/-- A round key (R32). -/
def Reg.isRoundKey : Reg → Bool
  | .rk _ => true
  | .cmd | .status | .mk _ | .bin _ _ | .bout _ _ | .sbox _ | .t0 _ | .t1 _ | .t2 _ | .t3 _ => false

/-- A word of BOUT (R34). -/
def Reg.isOutput : Reg → Bool
  | .bout _ _ => true
  | .cmd | .status | .mk _ | .rk _ | .bin _ _ | .sbox _ | .t0 _ | .t1 _ | .t2 _ | .t3 _ => false

/-- Whether the direction of an access is permitted at a register (condition 4 of R63). -/
def AccessKind.permitted (k : AccessKind) (r : Reg) : Bool :=
  match k with
  | .read => true
  | .write _ => r.writable

/-- The window offset an address reaches, if it lies in the window (R61). -/
def windowOffset (base addr : Nat) : Option Nat :=
  if base ≤ addr ∧ addr - base < Config.windowSize then some (addr - base) else none

/-- The register an access at window offset `off` is admitted to; none where the window answers BusError (R63). -/
def admittedReg (off width : Nat) (k : AccessKind) : Option Reg :=
  if width = 32 ∧ off % 4 = 0 then (regAt off).filter k.permitted else none

end Sys2Proof.Machine
end

