-- ==== Sys2Proof/Machine/Ops.lean ====
section
/-! DEFINITION. The shared operations: issue of a command with its three ends, drop, rejection and acceptance (60_exceptions.md
R202–R204), the end of a completion (70_reset_and_hazards.md R255), reading and writing registers (20_memory.md R64, R65, R83,
R84), reset (R240). The engine has no trap (R216): rejection is its one form of taking an error, and nothing returns from it. -/

namespace Sys2Proof.Machine

/-- The bus answers the host. -/
def State.respond (r : BusResponse) (s : State) : State := { s with responses := r :: s.responses }

/-- The first input is taken; a running command has one host turn less to wait (log 6). -/
def State.takeInput (rest : List Input) (s : State) : State := { s with inputs := rest, delay := s.delay - 1 }

/-- A change of STATUS alone. -/
def State.mapStatus (f : Status → Status) (s : State) : State :=
  { s with engine := { s.engine with status := f s.engine.status } }

/-- CMD <- w (R23, R204). -/
def State.storeCmd (w : Word) (s : State) : State := { s with engine := { s.engine with cmd := w } }

/-- A write while BUSY = 1: only STICKY[6] changes (R84, R210). -/
def dropWrite (s : State) : State := s.mapStatus Status.dropped

/-- reject(e) (R202). -/
def reject (e : ErrorCode) (s : State) : State := s.mapStatus (Status.rejected e)

/-- A command's latency on this engine, for each draw (R9, R256, R267; log 6). -/
def State.latency (lat : Nat → Nat → Block → Vector Word 32 → Vector Block 8 → Vector Block 8 → Nat) (s : State) : Nat → Nat :=
  fun d => lat s.engineBase d s.engine.masterKey s.engine.rk s.engine.bin s.engine.bout

/-- accept (R203): STATUS, the latch, and the command's latency, a fresh free value (R256; log 6). -/
def accept (i : Instr) (latency : Nat → Nat) (s : State) : State :=
  { s with
    engine := { s.engine with status := s.engine.status.accepted, latch := some i }
    delay := latency s.draws
    draws := s.draws + 1 }

/-- Issue of the word w (R204): dropped while BUSY = 1; else stored in CMD, then rejected with the first error of its checks, or
accepted. -/
def issue (w : Word) (error : Option ErrorCode) (accepted : State → State) (s : State) : State :=
  if s.engine.status.busy then dropWrite s
  else
    match error with
    | some e => reject e (s.storeCmd w)
    | none => accepted (s.storeCmd w)

/-- Issue of a word that decodes to no command: ILLEGAL_COMMAND (R205). -/
def issueIllegal (w : Word) (s : State) : State := issue w (some .illegalCommand) id s

/-- The end of a completion: BUSY <- 0 and the latch is emptied (R255). -/
def finish (s : State) : State :=
  { s with engine := { s.engine with status := s.engine.status.completed, latch := none } }

/-- The value of a register (R64, R69, R70), where it has a specified one. -/
def Engine.readReg (e : Engine) : Reg → Word
  | .cmd => e.cmd
  | .status => e.status.word
  | .mk j => e.masterKey[j]
  | .rk i => e.rk[i]
  | .bin b j => e.bin[b][j]
  | .bout b j => e.bout[b][j]
  | .sbox i => (sboxRom[i]).zeroExtend 32
  | .t0 i => e.tables.t0[i]
  | .t1 i => e.tables.t1[i]
  | .t2 i => e.tables.t2[i]
  | .t3 i => e.tables.t3[i]

/-- Whether the command writes the register at its completion (R83). -/
def Instr.writesReg (i : Instr) (r : Reg) : Bool :=
  match i with
  | .gentab => r.isTable
  | .derive _ => r.isRoundKey
  | .encb _ => r.isOutput
  | .decb _ => r.isOutput

/-- Whether the valid flag that guards the register is 0 (R64, R70). -/
def Status.unguarded (f : Status) (r : Reg) : Bool := (r.isRoundKey && !f.keysValid) || (r.isTable && !f.tablesValid)

/-- Whether a read of the register returns an unspecified value: its valid flag is 0, or the running command writes it
(R64, R70, R83). -/
def Engine.unspecified (e : Engine) (r : Reg) : Bool :=
  e.status.unguarded r || (e.status.busy && e.latch.any fun i => Instr.writesReg i r)

/-- An admitted read (R64): the register's value, or a free value where it is unspecified (R83). That the value is fresh by the
engine's base and its draw counter is a DESIGN CHOICE (log 5). The engine does not change. -/
def readAccess (r : Reg) (s : State) : State :=
  if s.engine.unspecified r then { s.respond (.data (Config.freeWord s.engineBase s.draws)) with draws := s.draws + 1 }
  else s.respond (.data (s.engine.readReg r))

/-- A store to MK or BIN, dropped while BUSY = 1 (R65, R84). -/
def guardedStore (f : Engine → Engine) (s : State) : State :=
  if s.engine.status.busy then dropWrite s else { s with engine := f s.engine }

/-- MK[j] <- v (R65). -/
def Engine.storeMk (j : Fin 4) (v : Word) (e : Engine) : Engine := { e with masterKey := e.masterKey.set j v }

/-- BIN[b][j] <- v (R65). -/
def Engine.storeBin (b : Fin 8) (j : Fin 4) (v : Word) (e : Engine) : Engine :=
  { e with bin := e.bin.set b (e.bin[b].set j v) }

/-- The reset event (R240): every piece of the engine's state takes its reset value, and a running command is abandoned. -/
def resetEngine (s : State) : State := { s with engine := Engine.reset }

end Sys2Proof.Machine
end

