-- ==== Sys2Proof/Machine/Primitives.lean ====
section
/-! DEFINITION. The operators and cipher primitives of 00_scope.md R10, R11 and R13, and the table round of 42_cipher.md R160. -/

namespace Sys2Proof.Machine

/-- rotl(x, n) of R11, for n < 32. -/
def rotl (x : Word) (n : Nat) : Word := (x <<< n) ||| (x >>> (32 - n))

/-- Byte k of a word, k = 3 the most significant (R10). -/
def byteOf (x : Word) (k : Nat) : Byte := x.extractLsb' (8 * k) 8

/-- tau: the S-box on every byte (R13). -/
def tau (x : Word) : Word :=
  sbox (byteOf x 3) ++ sbox (byteOf x 2) ++ sbox (byteOf x 1) ++ sbox (byteOf x 0)

/-- L, the diffusion of the round (R13). -/
def diffuse (x : Word) : Word := x ^^^ rotl x 2 ^^^ rotl x 10 ^^^ rotl x 18 ^^^ rotl x 24

/-- Lp, the diffusion of the key schedule (R13). -/
def diffuseKey (x : Word) : Word := x ^^^ rotl x 13 ^^^ rotl x 23

/-- Entry i of a 256-entry table, i a byte. -/
def lookup (t : Vector Word 256) (i : Byte) : Word := t[i.toNat]'i.isLt

/-- T_vec for one lane (R160): the tables T0, T3, T2, T1 serve the bytes from the most to the least significant. -/
def tVec (t : Tables) (x : Word) : Word :=
  lookup t.t0 (byteOf x 3) ^^^ lookup t.t3 (byteOf x 2) ^^^ lookup t.t2 (byteOf x 1) ^^^ lookup t.t1 (byteOf x 0)

end Sys2Proof.Machine
end

