-- ==== Sys2Proof/Machine/Cipher.lean ====
section
/-! DEFINITION. ENCB and DECB (42_cipher.md R160–R168): the 8-lane datapath, their issue and their completion. -/

namespace Sys2Proof.Machine

/-- Loading a batch: X_j[b] <- BIN[b][j] for the active lanes b < n (R163, R166). -/
def loadLanes (n : Nat) (bin : Vector Block 8) (x : Lanes) : Lanes where
  x0 := Vector.ofFn fun b : Fin 8 => if b.val < n then bin[b][0] else x.x0[b]
  x1 := Vector.ofFn fun b : Fin 8 => if b.val < n then bin[b][1] else x.x1[b]
  x2 := Vector.ofFn fun b : Fin 8 => if b.val < n then bin[b][2] else x.x2[b]
  x3 := Vector.ofFn fun b : Fin 8 => if b.val < n then bin[b][3] else x.x3[b]

/-- One round with round key k in every active lane at once (R162). -/
def roundLanes (t : Tables) (n : Nat) (k : Word) (x : Lanes) : Lanes where
  x0 := Vector.ofFn fun b : Fin 8 => if b.val < n then x.x1[b] else x.x0[b]
  x1 := Vector.ofFn fun b : Fin 8 => if b.val < n then x.x2[b] else x.x1[b]
  x2 := Vector.ofFn fun b : Fin 8 => if b.val < n then x.x3[b] else x.x2[b]
  x3 := Vector.ofFn fun b : Fin 8 =>
    if b.val < n then x.x0[b] ^^^ tVec t (x.x1[b] ^^^ x.x2[b] ^^^ x.x3[b] ^^^ k) else x.x3[b]

/-- Round r of a batch of n blocks, with round key RK[order r] (R164, R167): the lanes and the round counter (R39). -/
def batchRound (n : Nat) (order : Fin 32 → Fin 32) (e : Engine) (r : Fin 32) : Engine :=
  { e with lanes := roundLanes e.tables n e.rk[order r] e.lanes, round := r }

/-- The output of a batch: the last four state words in reverse in the active lanes, 0 in the others (R165, R166). -/
def batchOutput (n : Nat) (x : Lanes) : Vector Block 8 :=
  Vector.ofFn fun b : Fin 8 => if b.val < n then #v[x.x3[b], x.x2[b], x.x1[b], x.x0[b]] else Vector.replicate 4 0

/-- The batch datapath on the engine: load, 32 rounds, output (R163–R167). -/
def runBatch (n : Nat) (order : Fin 32 → Fin 32) (e : Engine) : Engine :=
  let loaded := { e with lanes := loadLanes n e.bin e.lanes }
  let last := (List.finRange 32).foldl (batchRound n order) loaded
  { last with bout := batchOutput n last.lanes }

/-- The lane registers of an engine's draw d: unspecified after a command (R39; log 4). -/
def freeLanes (base d : Nat) : Lanes where
  x0 := Vector.ofFn fun b : Fin 8 => Config.freeLaneWord base d 0 b
  x1 := Vector.ofFn fun b : Fin 8 => Config.freeLaneWord base d 1 b
  x2 := Vector.ofFn fun b : Fin 8 => Config.freeLaneWord base d 2 b
  x3 := Vector.ofFn fun b : Fin 8 => Config.freeLaneWord base d 3 b

/-- After the batch the lane registers and the round counter hold unspecified values (R39, I4; log 4). -/
def releaseLanes (s : State) : State :=
  { s with
    engine := { s.engine with lanes := freeLanes s.engineBase s.draws, round := Config.freeRound s.engineBase s.draws }
    draws := s.draws + 1 }

/-- Completion of a batch command: the datapath, then the end of the command (R167, R255). -/
def completeBatch (len : Byte) (order : Fin 32 → Fin 32) (s : State) : State :=
  finish (releaseLanes { s with engine := runBatch (blockCount len) order s.engine })

/-- ENCB's and DECB's checks, in R204's order (R167). -/
def batchError (len : Byte) (f : Status) : Option ErrorCode :=
  if !f.tablesValid then some .uninitializedTables
  else if !batchLengthOk len then some .invalidBlockCount
  else if !f.keysValid then some .uninitializedKeys
  else none

/-- Issue of ENCB (R167, R204). -/
def execEncb (len : Byte) (s : State) : Host.Outcome State Fault Refusal :=
  .next (issue (encode (.encb len)) (batchError len s.engine.status)
    (accept (.encb len) (s.latency (Config.latCipher (.encb len)))) s)

/-- Completion of ENCB: round r uses RK[r] (R164, R167). -/
def completeEncb (len : Byte) (s : State) : State := completeBatch len id s

/-- Issue of DECB (R168, R204). -/
def execDecb (len : Byte) (s : State) : Host.Outcome State Fault Refusal :=
  .next (issue (encode (.decb len)) (batchError len s.engine.status)
    (accept (.decb len) (s.latency (Config.latCipher (.decb len)))) s)

/-- Completion of DECB: round r uses RK[31 - r] (R164, R168). -/
def completeDecb (len : Byte) (s : State) : State := completeBatch len Fin.rev s

end Sys2Proof.Machine
end

