-- ==== Sys2Proof/Machine/Derive.lean ====
section
/-! DEFINITION. DERIVE (41_key_schedule.md R140–R147): its issue and its completion. -/

namespace Sys2Proof.Machine

/-- Four consecutive words K[i], K[i+1], K[i+2], K[i+3] of the schedule (R143). -/
structure KeyWindow where
  k0 : Word
  k1 : Word
  k2 : Word
  k3 : Word
deriving DecidableEq, Repr

/-- K[0..3] = MK ^ FK (R143, R145). -/
def keyStart (mk : Block) : KeyWindow where
  k0 := mk[0] ^^^ fk[0]
  k1 := mk[1] ^^^ fk[1]
  k2 := mk[2] ^^^ fk[2]
  k3 := mk[3] ^^^ fk[3]

/-- Step i: K[i+4] = K[i] ^ Lp(tau(K[i+1] ^ K[i+2] ^ K[i+3] ^ CK[i])) (R143, R145). -/
def keyStep (i : Nat) (k : KeyWindow) : KeyWindow where
  k0 := k.k1
  k1 := k.k2
  k2 := k.k3
  k3 := k.k0 ^^^ diffuseKey (tau (k.k1 ^^^ k.k2 ^^^ k.k3 ^^^ ck i))

/-- K[n..n+3]. -/
def keyWindow (mk : Block) : Nat → KeyWindow
  | 0 => keyStart mk
  | n + 1 => keyStep n (keyWindow mk n)

/-- RK[i] = K[i+4] (R143, R145). -/
def keySchedule (mk : Block) : Vector Word 32 := Vector.ofFn fun i : Fin 32 => (keyWindow mk (i.val + 1)).k3

/-- DERIVE's checks, in R204's order (R143). -/
def deriveError (len : Byte) (f : Status) : Option ErrorCode :=
  if !f.tablesValid then some .uninitializedTables
  else if !keyLengthOk len then some .invalidKeyLength
  else none

/-- Issue of DERIVE (R143, R204). -/
def execDerive (len : Byte) (s : State) : Host.Outcome State Fault Refusal :=
  .next (issue (encode (.derive len)) (deriveError len s.engine.status)
    (accept (.derive len) (s.latency Config.latDerive)) s)

/-- Completion of DERIVE (R143): MK as it stands (R85, R255). -/
def completeDerive (s : State) : State :=
  finish
    { s with
      engine := { s.engine with rk := keySchedule s.engine.masterKey, status := { s.engine.status with keysValid := true } } }

end Sys2Proof.Machine
end

