-- ==== Sys2Proof/Machine/Gentab.lean ====
section
/-! DEFINITION. GENTAB (40_tables.md R123–R126): its issue and its completion. -/

namespace Sys2Proof.Machine

/-- T0[i] = L(SBOX[i] << 24) (R124). -/
def tableEntry (i : Byte) : Word := diffuse ((sbox i).zeroExtend 32 <<< 24)

/-- The four tables GENTAB leaves (R123–R125). -/
def gentabTables : Tables where
  t0 := Vector.ofFn fun i : Fin 256 => tableEntry (.ofFin i)
  t1 := Vector.ofFn fun i : Fin 256 => rotl (tableEntry (.ofFin i)) 8
  t2 := Vector.ofFn fun i : Fin 256 => rotl (tableEntry (.ofFin i)) 16
  t3 := Vector.ofFn fun i : Fin 256 => rotl (tableEntry (.ofFin i)) 24

/-- Issue of GENTAB (R123, R204): a legal GENTAB word passes every check. -/
def execGentab (s : State) : Host.Outcome State Fault Refusal :=
  .next (issue (encode .gentab) none (accept .gentab (s.latency Config.latGentab)) s)

/-- Completion of GENTAB (R123). -/
def completeGentab (s : State) : State :=
  finish
    { s with
      engine := { s.engine with tables := gentabTables, status := { s.engine.status with tablesValid := true } } }

end Sys2Proof.Machine
end

