-- ==== Sys2Proof/Machine/Dispatch.lean ====
section
/-! DEFINITION. One arm per command. `exec i` is what the host's write of `encode i` to CMD does (60_exceptions.md R204); the
results follow at completion, a later event (70_reset_and_hazards.md R255, R256), in Machine/Sequencer.lean. -/

namespace Sys2Proof.Machine

def exec (i : Instr) (s : State) : Host.Outcome State Fault Refusal :=
  match i with
  | .gentab => Sys2Proof.Machine.execGentab s
  | .derive len => Sys2Proof.Machine.execDerive len s
  | .encb len => Sys2Proof.Machine.execEncb len s
  | .decb len => Sys2Proof.Machine.execDecb len s

end Sys2Proof.Machine
end

