-- ==== Sys2Proof/Machine/Bus.lean ====
section
/-! DEFINITION. Host accesses to the register window (20_memory.md R61–R66, R84), the POLL of 30_encoding.md R101 and the reset
event, as the host's turn of a step. -/

namespace Sys2Proof.Machine

/-- The response that goes with an outcome, where the machine goes on. -/
def answered (r : BusResponse) : Host.Outcome State Fault Refusal → Host.Outcome State Fault Refusal
  | .next s => .next (s.respond r)
  | .fault f => .fault f
  | .refused f => .refused f

/-- A host write of w to CMD (R204): decode, then run the command, or reject an illegal word. -/
def issueWord (w : Word) (s : State) : Host.Outcome State Fault Refusal :=
  match decode w with
  | .ok i => exec i s
  | .error _ => .next (issueIllegal w s)

/-- An admitted write (R65). A register without write access is never admitted (R63), and keeps its value. -/
def writeAccess (r : Reg) (v : Word) (s : State) : Host.Outcome State Fault Refusal :=
  match r with
  | .cmd => issueWord v s
  | .status => .next (s.mapStatus (Status.cleared v))
  | .mk j => .next (guardedStore (Engine.storeMk j v) s)
  | .bin b j => .next (guardedStore (Engine.storeBin b j v) s)
  | .rk _ => .next s
  | .bout _ _ => .next s
  | .sbox _ => .next s
  | .t0 _ => .next s
  | .t1 _ => .next s
  | .t2 _ => .next s
  | .t3 _ => .next s

/-- A host access (R61, R63–R65): outside the window it is not decoded; not admitted, it is a BusError; neither changes the
engine. -/
def hostAccess (a : HostAccess) (s : State) : Host.Outcome State Fault Refusal :=
  match windowOffset s.engineBase a.addr with
  | none => .next (s.respond .notDecoded)
  | some off =>
    match admittedReg off a.width a.kind with
    | none => .next (s.respond .busError)
    | some r =>
      match a.kind with
      | .read => .next (readAccess r s)
      | .write v => answered .done (writeAccess r v s)

/-- One turn of POLL (R101): a read of STATUS; while it shows BUSY = 1, POLL comes again. -/
def pollStatus (s : State) : State :=
  let s' := readAccess .status s
  if s.engine.status.busy then { s' with inputs := .poll :: s'.inputs } else s'

/-- The host's turn, or the reset event. -/
def hostTurn (i : Input) (s : State) : Host.Outcome State Fault Refusal :=
  match i with
  | .access a => hostAccess a s
  | .poll => .next (pollStatus s)
  | .reset => .next (resetEngine s)

end Sys2Proof.Machine
end

