-- ==== Sys2Proof/Machine/Sequencer.lean ====
section
/-! DEFINITION. The sequencer's completion step (70_reset_and_hazards.md R255), whose turn it is (20_memory.md R76; R256), and the
placing of a command at the head of the inputs. -/

namespace Sys2Proof.Machine

/-- The completion of the latched command (R255). With an empty latch there is nothing to complete: no run reaches that
(R38; log 12). -/
def complete (s : State) : Host.Outcome State Fault Refusal :=
  match s.engine.latch with
  | none => .fault .busyWithoutCommand
  | some .gentab => .next (completeGentab s)
  | some (.derive _) => .next (completeDerive s)
  | some (.encb len) => .next (completeEncb len s)
  | some (.decb len) => .next (completeDecb len s)

/-- Who acts next. -/
inductive Turn where
  /-- The sequencer completes the running command. -/
  | completion
  /-- The outside acts: the first input, and the inputs after it. -/
  | outside (i : Input) (rest : List Input)
  /-- Nothing is running and nothing is asked. -/
  | idle
deriving DecidableEq, Repr

/-- A running command completes once its latency has passed, or when the outside does nothing more; otherwise the outside acts
(R76, R256; log 6). -/
def State.turn (s : State) : Turn :=
  match s.inputs with
  | [] => if s.engine.status.busy then .completion else .idle
  | i :: rest => if s.engine.status.busy && s.delay == 0 then .completion else .outside i rest

/-- One event (R76). An idle machine stays as it is (R223; log 7). -/
def nextEvent (s : State) : Host.Outcome State Fault Refusal :=
  match s.turn with
  | .completion => complete s
  | .outside i rest => hostTurn i (s.takeInput rest)
  | .idle => .next s

/-- The host's write of w to CMD comes first: its turn is next, and everything else is as it was. -/
def State.placeCommand (w : Word) (s : State) : State :=
  { s with inputs := .access ⟨s.engineBase, 32, .write w⟩ :: s.inputs, delay := s.delay + 1 }

end Sys2Proof.Machine
end

