-- ==== Sys2Proof/Machine/Step.lean ====
section
/-! DEFINITION. One step of the machine, and where a command is placed so that the next step runs it. -/

namespace Sys2Proof.Machine

/-- One step: one host access, one POLL read, one reset event, or one completion (20_memory.md R76). -/
def step (s : State) : Host.Outcome State Fault Refusal := nextEvent s

/-- The engine fetches nothing (10_state.md R22): a command comes as the host's write to CMD (R90). So the word, its bits above
`nbits` 0, is placed as that write, the first input, with the host's turn next (log 7). -/
def State.withFetchWord (s : State) (nbits w : Nat) : State := s.placeCommand (BitVec.ofNat 32 (w % 2 ^ nbits))

end Sys2Proof.Machine
end

