-- ==== Sys2Proof/Machine/HostScript.lean ====
section
/-! DEFINITION. The command syntax of 30_encoding.md R100 and the host-script operations of R101, as lists of inputs. POLL is an
input of its own (`Input.poll`). Which operations a host performs, and in what order, is the host's (R102). What the operations
give back is read from the responses, oldest first. -/

namespace Sys2Proof.Machine

/-- A command as written in a script (R100). An absent operand takes its default. -/
inductive AsmCommand where
  | gentab
  | derive (n : Option Byte)
  | encb (n : Option Byte)
  | decb (n : Option Byte)
  /-- `.cmd`, the raw word. -/
  | raw (w : Word)
deriving DecidableEq, Repr

/-- The word of a command: the default of DERIVE is 16, that of ENCB and DECB 128 (R100). -/
def AsmCommand.word : AsmCommand → Word
  | .gentab => encode .gentab
  | .derive n => encode (.derive (n.getD 16))
  | .encb n => encode (.encb (n.getD 128))
  | .decb n => encode (.decb (n.getD 128))
  | .raw w => w

/-- WR off, v. -/
def hostWr (base off : Nat) (v : Word) : Input := .access ⟨base + off, 32, .write v⟩

/-- RD off. -/
def hostRd (base off : Nat) : Input := .access ⟨base + off, 32, .read⟩

/-- ISSUE c. -/
def hostIssue (base : Nat) (c : AsmCommand) : Input := hostWr base 0x0000 c.word

/-- CLR m. -/
def hostClr (base : Nat) (m : Word) : Input := hostWr base 0x0004 m

/-- LDKEY k, k in wire order. -/
def hostLdKey (base : Nat) (k : BitVec 128) : List Input :=
  [0, 1, 2, 3].map fun j => hostWr base (0x0010 + 4 * j) (wireWord k j)

/-- LDBLK b, p, p in wire order. -/
def hostLdBlk (base b : Nat) (p : BitVec 128) : List Input :=
  [0, 1, 2, 3].map fun j => hostWr base (0x0100 + 16 * b + 4 * j) (wireWord p j)

/-- RDBLK b, the four reads. -/
def hostRdBlk (base b : Nat) : List Input := [0, 1, 2, 3].map fun j => hostRd base (0x0180 + 16 * b + 4 * j)

/-- RDBLK b -> c, the value c: the four read words, word j in c[127-32j:96-32j]. There is none where a read gave no data. -/
def rdBlkValue : List BusResponse → Option (BitVec 128)
  | [.data w0, .data w1, .data w2, .data w3] => some (wireBlock #v[w0, w1, w2, w3])
  | _ => none

/-- POLL: the STATUS word that ended the loop, the first with bit 0 = 0, and the responses after it. -/
def pollAnswer : List BusResponse → Option (BusResponse × List BusResponse)
  | .data s :: rest => if s.getLsbD 0 then pollAnswer rest else some (.data s, rest)
  | .done :: _ => none
  | .busError :: _ => none
  | .notDecoded :: _ => none
  | [] => none

/-- The answer to each input of a script, and the responses after it: one response for an access, the last read of the loop for a
POLL; a reset is not answered (log 14). There is none while a response is still to come. -/
def answers : List Input → List BusResponse → Option (List BusResponse × List BusResponse)
  | [], rs => some ([], rs)
  | .access _ :: is, r :: rs => (answers is rs).map fun a => (r :: a.1, a.2)
  | .access _ :: _, [] => none
  | .poll :: is, rs =>
    match pollAnswer rs with
    | none => none
    | some (s, rs') => (answers is rs').map fun a => (s :: a.1, a.2)
  | .reset :: is, rs => answers is rs

end Sys2Proof.Machine
end

