-- ==== Sys2Proof/Machine/Partitioner.lean ====
section
/-! DEFINITION. The procedure of a host that spreads a buffer over several engines (60_exceptions.md R225–R232). It binds the host,
not the engine (R225): plain arithmetic, and the inputs each worker gives its engine. -/

namespace Sys2Proof.Machine.Partitioner

/-- What the host reports without issuing a command. -/
inductive HostError where
  /-- The buffer is no whole number of blocks (R226). -/
  | invalidBlockCount
  /-- An engine the host would use fails the check before the workers start (R232). The spec names no error for it: the name is a
  DESIGN CHOICE (log 15). -/
  | notReady
deriving DecidableEq, Repr

/-- The check of the buffer's length in bytes; the number of blocks (R226). -/
def totalBlocks (bytes : Nat) : Except HostError Nat :=
  if bytes % 16 = 0 then .ok (bytes / 16) else .error .invalidBlockCount

/-- Whole batches (R226). -/
def totalBatches (blocks : Nat) : Nat := blocks / Config.laneWidth

/-- rem, the blocks left over (R226). -/
def remainder (blocks : Nat) : Nat := blocks % Config.laneWidth

/-- worker_count: N_ENGINES, or a smaller number the caller gives, at least 1 (R227). -/
def workerCount (nEngines : Nat) (requested : Option Nat) : Nat := max 1 (min nEngines (requested.getD nEngines))

/-- count(w), the batches of worker w (R228). -/
def count (batches workers w : Nat) : Nat := batches / workers + if w < batches % workers then 1 else 0

/-- start(w), the first batch of worker w (R228). -/
def start (batches workers w : Nat) : Nat := w * (batches / workers) + min w (batches % workers)

/-- Encrypt or decrypt. -/
inductive Direction where
  | encrypt
  | decrypt
deriving DecidableEq, Repr

/-- The command for n blocks (R229, R230). -/
def Direction.command (d : Direction) (n : Nat) : AsmCommand :=
  match d with
  | .encrypt => .encb (some (BitVec.ofNat 8 (16 * n)))
  | .decrypt => .decb (some (BitVec.ofNat 8 (16 * n)))

/-- One batch on the engine at `base`: write the blocks, issue the command, poll, read the blocks (R229). -/
def batchScript (base : Nat) (d : Direction) (blocks : List (BitVec 128)) : List Input :=
  (blocks.mapIdx fun b p => hostLdBlk base b p).flatten ++ [hostIssue base (d.command blocks.length), .poll] ++
    (blocks.mapIdx fun b _ => hostRdBlk base b).flatten

/-- Blocks 8q .. 8q+7 of a buffer, batch q (R229). -/
def batchOf (buffer : List (BitVec 128)) (q : Nat) : List (BitVec 128) :=
  (buffer.drop (Config.laneWidth * q)).take Config.laneWidth

/-- Worker w's inputs to its engine, whose window is at `base`: its batches in increasing order (R229). -/
def workerScript (base : Nat) (d : Direction) (buffer : List (BitVec 128)) (workers w : Nat) : List Input :=
  let batches := totalBatches buffer.length
  (List.range' (start batches workers w) (count batches workers w)).flatMap fun q => batchScript base d (batchOf buffer q)

/-- The blocks left over, 8·total_batches .. total_blocks-1 (R230). -/
def leftOver (buffer : List (BitVec 128)) : List (BitVec 128) := buffer.drop (Config.laneWidth * totalBatches buffer.length)

/-- The inputs that process the blocks left over, to the engine whose window is at `base` (R230). -/
def remainderScript (base : Nat) (d : Direction) (buffer : List (BitVec 128)) : List Input :=
  if remainder buffer.length = 0 then [] else batchScript base d (leftOver buffer)

/-- The blocks of consecutive RDBLKs. -/
def readBlocks : List BusResponse → Option (List (BitVec 128))
  | [] => some []
  | r0 :: r1 :: r2 :: r3 :: rs =>
    match rdBlkValue [r0, r1, r2, r3] with
    | none => none
    | some c => (readBlocks rs).map (c :: ·)
  | _ => none

/-- The output blocks of one batch, from the responses to its script, and the responses after it (steps 3 and 4 of R229). -/
def batchBlocks (base : Nat) (d : Direction) (blocks : List (BitVec 128)) (rs : List BusResponse) :
    Option (List (BitVec 128) × List BusResponse) :=
  match answers (batchScript base d blocks) rs with
  | none => none
  | some (as, rest) => (readBlocks (as.drop (4 * blocks.length + 2))).map fun c => (c, rest)

/-- The blocks c written to the output from block `first` on; every other output block is as it was (step 4 of R229). -/
def putBlocks (first : Nat) (c out : List (BitVec 128)) : List (BitVec 128) :=
  out.mapIdx fun i x => if first ≤ i then c.getD (i - first) x else x

/-- The output after n batches from batch q on, each read into blocks 8q .. 8q+7 (R229). -/
def storeBatches (base : Nat) (d : Direction) (buffer : List (BitVec 128)) :
    Nat → Nat → List BusResponse → List (BitVec 128) → Option (List (BitVec 128))
  | 0, _, _, out => some out
  | n + 1, q, rs, out =>
    match batchBlocks base d (batchOf buffer q) rs with
    | none => none
    | some (c, rest) => storeBatches base d buffer n (q + 1) rest (putBlocks (Config.laneWidth * q) c out)

/-- Worker w's part of the output, from the responses to its script (R229). -/
def storeWorker (base : Nat) (d : Direction) (buffer : List (BitVec 128)) (workers w : Nat) (rs : List BusResponse)
    (out : List (BitVec 128)) : Option (List (BitVec 128)) :=
  let batches := totalBatches buffer.length
  storeBatches base d buffer (count batches workers w) (start batches workers w) rs out

/-- The output of the blocks left over, from the responses to their script (R230). -/
def storeRemainder (base : Nat) (d : Direction) (buffer : List (BitVec 128)) (rs : List BusResponse)
    (out : List (BitVec 128)) : Option (List (BitVec 128)) :=
  if remainder buffer.length = 0 then some out
  else (batchBlocks base d (leftOver buffer) rs).map fun a => putBlocks (Config.laneWidth * totalBatches buffer.length) a.1 out

/-- The blocks of a buffer of bytes, each in wire order (R14, R226). -/
def blocksOfBytes (bytes : List Byte) : List (BitVec 128) :=
  (List.range (bytes.length / 16)).map fun i =>
    ((bytes.drop (16 * i)).take 16).foldl (fun c b => (c <<< 8) ||| b.zeroExtend 128) 0

/-- The bytes of a block in wire order (R14). -/
def bytesOfBlock (c : BitVec 128) : List Byte := (List.range 16).map fun k => c.extractLsb' (120 - 8 * k) 8

end Sys2Proof.Machine.Partitioner
end

