-- ==== Sys2Proof/Machine/System.lean ====
section
/-! DEFINITION. Several engines (20_memory.md R82; 60_exceptions.md R224, R231, R232): independent copies, each with its own window
and its own host worker. Which engine moves next is the caller's argument, so every interleaving of the workers is a list of
engine numbers. DESIGN CHOICE (logs 5 and 15): the unspecified reads of two engines are free of each other through their bases;
engines given one base, which R82 excludes, would agree wherever their draw counters do. -/

namespace Sys2Proof.Machine

/-- N_ENGINES engine instances, N_ENGINES the length of the list (R9, R224). -/
structure System where
  engines : List State
deriving DecidableEq, Repr

/-- Engine k makes one step; there is none with that number, and nothing happens. -/
def System.stepAt (k : Nat) (sys : System) : Host.Outcome System Fault Refusal :=
  match sys.engines[k]? with
  | none => .next sys
  | some s =>
    match step s with
    | .next s' => .next { engines := sys.engines.set k s' }
    | .fault f => .fault f
    | .refused r => .refused r

/-- The steps of the listed engines, in order. -/
def System.runAlong : List Nat → System → Host.Outcome System Fault Refusal
  | [], sys => .next sys
  | k :: ks, sys =>
    match sys.stepAt k with
    | .next sys' => sys'.runAlong ks
    | .fault f => .fault f
    | .refused r => .refused r

/-- Each engine has its own window at its own ENGINE_BASE: no two windows overlap (R82). -/
def System.windowsApart (sys : System) : Prop :=
  sys.engines.Pairwise fun s s' =>
    s.engineBase + Config.windowSize ≤ s'.engineBase ∨ s'.engineBase + Config.windowSize ≤ s.engineBase

/-- The check once, up front (R232): both valid flags on every engine the host will use, the first `used` of them, and the same key
on all of these. -/
def System.ready (used : Nat) (sys : System) : Bool :=
  (sys.engines.take used).all fun s =>
    s.engine.status.tablesValid && s.engine.status.keysValid &&
      (sys.engines.take used).all fun s' => decide (s'.engine.masterKey = s.engine.masterKey)

/-- The host has had every response from an engine, and no command runs (R231, R257). -/
def State.idle (s : State) : Bool := s.inputs.isEmpty && !s.engine.status.busy

/-- The join: every worker has done its accesses and no command runs on its engine (R231). -/
def System.joined (used : Nat) (sys : System) : Bool := (sys.engines.take used).all State.idle

end Sys2Proof.Machine
end

