-- ==== Sys2Proof/Machine/Driver.lean ====
section
/-! DEFINITION. The host that processes a buffer on several engines, from start to end (60_exceptions.md R225–R232): the check, one
worker on each engine, the join, the blocks left over on engine 0, the output in the order of the input. The order in which the
engines move is the caller's: one list of engine numbers up to the join and one after it. -/

namespace Sys2Proof.Machine

open Partitioner

/-- A buffer to process, and how. -/
structure Job where
  direction : Direction
  blocks : List (BitVec 128)
  /-- worker_count (R227). -/
  workers : Nat
deriving DecidableEq, Repr

/-- A script handed to an engine. -/
def State.give (script : List Input) (s : State) : State := { s with inputs := s.inputs ++ script }

/-- The responses an engine has given since it was in state `before`, oldest first. -/
def State.since (before s : State) : List BusResponse := (s.responses.take (s.responses.length - before.responses.length)).reverse

/-- Worker w drives engine w, through that engine's own window (R225, R229). -/
def System.startWorkers (job : Job) (sys : System) : System where
  engines := sys.engines.mapIdx fun w s =>
    if w < job.workers then s.give (workerScript s.engineBase job.direction job.blocks job.workers w) else s

/-- The blocks left over go to engine 0, and only after the join (R230). -/
def System.startRemainder (job : Job) (sys : System) : Option System :=
  if sys.joined job.workers then
    some { engines := sys.engines.modify 0 fun s => s.give (remainderScript s.engineBase job.direction job.blocks) }
  else none

/-- The output with worker w's blocks written to it, from what its engine answered between `before` and `sys` (R229). -/
def storeFrom (job : Job) (before sys : System) (w : Nat) (out : List (BitVec 128)) : Option (List (BitVec 128)) :=
  match before.engines[w]?, sys.engines[w]? with
  | some s, some t => storeWorker s.engineBase job.direction job.blocks job.workers w (State.since s t) out
  | _, _ => none

/-- The output with the blocks of workers 0 .. n-1 (R229). -/
def storeWorkers (job : Job) (before sys : System) : Nat → List (BitVec 128) → Option (List (BitVec 128))
  | 0, out => some out
  | n + 1, out => (storeWorkers job before sys n out).bind (storeFrom job before sys n)

/-- The output with the blocks left over, from what engine 0 answered between `before` and `sys` (R230). -/
def storeLast (job : Job) (before sys : System) (out : List (BitVec 128)) : Option (List (BitVec 128)) :=
  match before.engines[0]?, sys.engines[0]? with
  | some s, some t => storeRemainder s.engineBase job.direction job.blocks (State.since s t) out
  | _, _ => none

/-- A run of the system, where it goes on. -/
def System.along (order : List Nat) (sys : System) : Option System :=
  match sys.runAlong order with
  | .next t => some t
  | .fault _ => none
  | .refused _ => none

/-- The driver (R231): start the workers, run the engines in the order `first`, join, start the blocks left over, run the engines in
the order `last`, and return the output, each block at its index. There is no output where the driver still waits when an order
ends. -/
def runJob (job : Job) (first last : List Nat) (sys : System) : Option (List (BitVec 128)) := do
  let joined ← (sys.startWorkers job).along first
  let rest ← joined.startRemainder job
  let ended ← rest.along last
  if ended.joined job.workers then
    let out ← storeWorkers job sys joined job.workers (List.replicate job.blocks.length 0)
    storeLast job joined ended out
  else none

/-- A buffer of bytes: the check of its length (R226), worker_count (R227), the check of the engines once (R232), and the job. -/
def processBuffer (d : Direction) (bytes : List Byte) (requested : Option Nat) (first last : List Nat) (sys : System) :
    Except HostError (Option (List Byte)) :=
  match totalBlocks bytes.length with
  | .error e => .error e
  | .ok _ =>
    let workers := workerCount sys.engines.length requested
    if sys.ready workers then
      .ok ((runJob ⟨d, blocksOfBytes bytes, workers⟩ first last sys).map fun out => out.flatMap bytesOfBlock)
    else .error .notReady

end Sys2Proof.Machine
end

