-- ==== Sys2Proof/Machine/Reference.lean ====
section
/-! DEFINITION. The cipher as a pure function of one block (42_cipher.md R174). The machine does not call it: it is what the 8-lane
datapath of Machine/Cipher.lean is held against. -/

namespace Sys2Proof.Machine

/-- One round on a block's four state words (R162). -/
def cryptRound (t : Tables) (x : Block) (k : Word) : Block :=
  #v[x[1], x[2], x[3], x[0] ^^^ tVec t (x[1] ^^^ x[2] ^^^ x[3] ^^^ k)]

/-- Crypt(P, ks) of R174: 32 rounds, then the four words in reverse. -/
def crypt (t : Tables) (p : Block) (ks : Vector Word 32) : Block := (ks.toList.foldl (cryptRound t) p).reverse

end Sys2Proof.Machine
end

