-- ==== Sys2Proof/WellFormed.lean ====
section
/-! DEFINITION. The legal forms of the commands (30_encoding.md R93–R97). Every term of `Instr` has an encoding and decodes;
the ones below are those whose LEN the command can accept. The others decode too, and are rejected at issue (R99, R204). -/

namespace Sys2Proof

/-- LEN values ENCB and DECB can accept: 16, 32, 48, 64, 80, 96, 112 and 128 (R93). -/
def batchLengths : List Byte := [16, 32, 48, 64, 80, 96, 112, 128]

/-- The legal form of a command (R93): no condition on GENTAB, LEN = 16 for DERIVE, a listed batch length for ENCB and DECB. -/
def Instr.wellFormed : Instr → Bool
  | .gentab => true
  | .derive len => len == 16
  | .encb len => batchLengths.contains len
  | .decb len => batchLengths.contains len

end Sys2Proof
end

