-- ==== Sys2Proof/Safety.lean ====
section
/-! DEFINITION. What claims about the machine are said in: the invariant of its reachable states (10_state.md R38, R44;
60_exceptions.md R201, R210, R251), the end of a run (70_reset_and_hazards.md R257), and a clean run (60_exceptions.md R214). -/

namespace Sys2Proof.Machine

/-- What every reachable state satisfies. -/
structure Coherent (s : State) : Prop where
  /-- The latch is empty when BUSY = 0 (R38) and holds a command when BUSY = 1 (R203). -/
  latch_iff_busy : s.engine.latch.isSome = s.engine.status.busy
  /-- A latched command passed the checks of LEN (R204). -/
  latch_wellFormed : ∀ i, s.engine.latch = some i → i.wellFormed = true
  /-- A latched command other than GENTAB found TABLES_VALID (R206). -/
  latch_tables : ∀ i, s.engine.latch = some i → i ≠ .gentab → s.engine.status.tablesValid = true
  /-- A latched ENCB or DECB found KEYS_VALID (R209). -/
  latch_keys : ∀ len, s.engine.latch = some (.encb len) ∨ s.engine.latch = some (.decb len) → s.engine.status.keysValid = true
  /-- CMD holds the running command's word (R38). -/
  cmd_latched : ∀ i, s.engine.latch = some i → s.engine.cmd = encode i
  /-- ERRCODE is 0 while a command runs (R210). -/
  busy_errcode : s.engine.status.busy = true → s.engine.status.errcode = 0
  /-- ERRCODE is never 6 or 7 (R201). -/
  errcode_legal : s.engine.status.errcode.toNat ≤ 5
  /-- Keys were derived after tables were generated (R251). -/
  keys_after_tables : s.engine.status.keysValid = true → s.engine.status.tablesValid = true
  /-- Valid tables are those of R124 and R125 (R44). -/
  tables_valid : s.engine.status.tablesValid = true → s.engine.tables = gentabTables
  /-- Valid round keys are the schedule of some master key (R44). -/
  keys_valid : s.engine.status.keysValid = true → ∃ mk, s.engine.rk = keySchedule mk
  /-- ENGINE_BASE is aligned to 8 KiB (R9). -/
  base_aligned : s.engineBase % Config.windowSize = 0

/-- n steps, stopping at the first that does not go on (R76: one interleaving of host accesses and completions). -/
def runSteps : Nat → State → Host.Outcome State Fault Refusal
  | 0, s => .next s
  | n + 1, s =>
    match step s with
    | .next s' => runSteps n s'
    | .fault f => .fault f
    | .refused r => .refused r

/-- The end of a run: the host has done its last access and BUSY = 0 (R257). -/
def State.ended (s : State) : Prop := s.inputs = [] ∧ s.engine.status.busy = false

/-- No command was rejected and no write was dropped since the last clear (R212, R214). -/
def State.clean (s : State) : Prop := s.engine.status.sticky = 0

end Sys2Proof.Machine
end

