-- ==== Sys2Proof/Certificates/Slice0/Obligations.lean ====
section
/-! DEFINITION. The statements for the provers, from the numbered rules of spec/. -/

open Sys2Proof Sys2Proof.Machine

namespace Sys2Proof.Claims

/-- WR off, v of 30_encoding.md R101. -/
def hostWrite (off : Nat) (v : Word) (s : State) : Host.Outcome State Fault Refusal :=
  hostAccess ⟨s.engineBase + off, 32, .write v⟩ s

/-- RD off of 30_encoding.md R101. -/
def hostRead (off : Nat) (s : State) : Host.Outcome State Fault Refusal :=
  hostAccess ⟨s.engineBase + off, 32, .read⟩ s

/-- OP of a command word as a number, by its bits 3:0 (R91). -/
def wordOp (w : Word) : Nat := w.toNat % 16

/-- LEN of a command word as a number, by its bits 15:8 (R91, R93). -/
def wordLen (w : Word) : Nat := w.toNat / 256 % 256

/-- The words R98 lists: a reserved opcode, a nonzero reserved field, GENTAB with a nonzero LEN. -/
def illegalWord (w : Word) : Prop :=
  wordOp w = 0 ∨ 5 ≤ wordOp w ∨ w.toNat / 16 % 16 ≠ 0 ∨ w.toNat / 65536 ≠ 0 ∨ (wordOp w = 1 ∧ wordLen w ≠ 0)

/-- A word of BOUT's legal lengths: LEN in 16, 32, ..., 128 (R93). -/
def legalBatch (len : Nat) : Prop := len % 16 = 0 ∧ 16 ≤ len ∧ len ≤ 128

/-- The checks of R204 in their order, on the bits of the word: the code the command is rejected with, 0 where it is accepted. -/
def CodeAtIssue (w : Word) (f : Status) (code : Nat) : Prop :=
  (illegalWord w ∧ code = 1) ∨
  (¬ illegalWord w ∧ wordOp w ≠ 1 ∧ f.tablesValid = false ∧ code = 2) ∨
  (¬ illegalWord w ∧ wordOp w = 2 ∧ f.tablesValid = true ∧ wordLen w ≠ 16 ∧ code = 3) ∨
  (¬ illegalWord w ∧ (wordOp w = 3 ∨ wordOp w = 4) ∧ f.tablesValid = true ∧ ¬ legalBatch (wordLen w) ∧ code = 4) ∨
  (¬ illegalWord w ∧ (wordOp w = 3 ∨ wordOp w = 4) ∧ f.tablesValid = true ∧ legalBatch (wordLen w) ∧ f.keysValid = false ∧
    code = 5) ∨
  (¬ illegalWord w ∧ wordOp w = 1 ∧ code = 0) ∨
  (¬ illegalWord w ∧ wordOp w = 2 ∧ f.tablesValid = true ∧ wordLen w = 16 ∧ code = 0) ∨
  (¬ illegalWord w ∧ (wordOp w = 3 ∨ wordOp w = 4) ∧ f.tablesValid = true ∧ legalBatch (wordLen w) ∧ f.keysValid = true ∧
    code = 0)

/-- The engine after a rejection with code e of the word w (R202): CMD, ERRCODE and STICKY[e], nothing else. -/
def rejectedEngine (w : Word) (e : Nat) (g : Engine) : Engine :=
  { g with
    cmd := w
    status := { g.status with errcode := BitVec.ofNat 3 e, sticky := g.status.sticky ||| BitVec.twoPow 6 (e - 1) } }

/-- The engine after the acceptance of the command i (R203): CMD, ERRCODE, BUSY and the latch, nothing else. -/
def acceptedEngine (i : Instr) (g : Engine) : Engine :=
  { g with cmd := encode i, status := { g.status with errcode := 0, busy := true }, latch := some i }

/-- The engine after a dropped write (R84): STICKY[6], nothing else. -/
def droppedEngine (g : Engine) : Engine :=
  { g with status := { g.status with sticky := g.status.sticky ||| BitVec.twoPow 6 5 } }

/-- The next event is the reset event. -/
def resetNext (s : State) : Prop := ∃ rest, s.turn = .outside .reset rest

/-- The next event is an admitted host write of v to the register r. -/
def writeNext (s : State) (r : Reg) (v : Word) : Prop :=
  ∃ rest, s.turn = .outside (.access ⟨s.engineBase + r.offset, 32, .write v⟩) rest

/-- The sequence K[0..35] of R143 for the master key mk. -/
def IsKeySequence (mk : Block) (K : Nat → Word) : Prop :=
  (∀ j : Fin 4, K j = mk[j] ^^^ fk[j]) ∧
  ∀ i, i < 32 → K (i + 4) = K i ^^^ diffuseKey (tau (K (i + 1) ^^^ K (i + 2) ^^^ K (i + 3) ^^^ ck i))

/-- The batch result of R174: Crypt of each active block, 0 in the other lanes. -/
def batchResult (t : Tables) (n : Nat) (bin : Vector Block 8) (ks : Vector Word 32) (b : Fin 8) : Block :=
  if b.val < n then crypt t bin[b] ks else Vector.replicate 4 0

/-- What a completed command leaves, from the engine g it was accepted on (R85): the tables, the round keys, the batch. -/
def ResultOf (i : Instr) (g v : Engine) : Prop :=
  match i with
  | .gentab => v.tables = gentabTables ∧ v.rk = g.rk ∧ v.bout = g.bout
  | .derive _ => v.rk = keySchedule g.masterKey ∧ v.tables = g.tables ∧ v.bout = g.bout
  | .encb len =>
    (∀ b : Fin 8, v.bout[b] = batchResult g.tables (len.toNat / 16) g.bin g.rk b) ∧ v.tables = g.tables ∧ v.rk = g.rk
  | .decb len =>
    (∀ b : Fin 8, v.bout[b] = batchResult g.tables (len.toNat / 16) g.bin g.rk.reverse b) ∧ v.tables = g.tables ∧ v.rk = g.rk

/-- The key, and the plaintext, of vector V1, as words (R68). -/
def knownKey : Block := #v[0x01234567, 0x89ABCDEF, 0xFEDCBA98, 0x76543210]

/-- The ciphertext of vector V1. -/
def knownCiphertext : Block := #v[0x681EDF34, 0xD206965E, 0x86B3E94F, 0x536E4246]

/-- One block of the driver's output, in wire order: Crypt of R174 under the schedule of mk, reversed for DECB (R164). -/
def outputBlock (d : Partitioner.Direction) (mk : Block) (p : BitVec 128) : BitVec 128 :=
  match d with
  | .encrypt => wireBlock (crypt gentabTables (wireWords p) (keySchedule mk))
  | .decrypt => wireBlock (crypt gentabTables (wireWords p) (keySchedule mk).reverse)

/-- What the driver returns for a buffer: each block's output at the block's place (R231). -/
def outputBytes (d : Partitioner.Direction) (mk : Block) (bytes : List Byte) : List Byte :=
  (Partitioner.blocksOfBytes bytes).flatMap fun p => Partitioner.bytesOfBlock (outputBlock d mk p)

/-- An engine as a host leaves it before it starts the driver: no command running, nothing asked, and RK the schedule of MK = mk. -/
def Prepared (mk : Block) (s : State) : Prop :=
  Coherent s ∧ s.idle = true ∧ s.engine.masterKey = mk ∧ s.engine.rk = keySchedule mk

end Sys2Proof.Claims

open Sys2Proof.Claims

/-! ### Encoding -/

/-- R94–R97, R99: the decoder reads back every command, with LEN at each of its 256 values. -/
def Obligations.DecodeReadsEveryEncoding : Prop := ∀ i : Instr, decode (encode i) = .ok i

/-- R94–R99: a word that decodes is the one encoding of what it decodes to. -/
def Obligations.EveryCommandHasOneWord : Prop := ∀ (w : Word) (i : Instr), decode w = .ok i → encode i = w

/-- R100: the words of the syntax table, with the default operands. -/
def Obligations.SyntaxTableWords : Prop :=
  AsmCommand.gentab.word = 0x00000001 ∧ (AsmCommand.derive none).word = 0x00001002 ∧
  (AsmCommand.encb none).word = 0x00008003 ∧ (AsmCommand.decb none).word = 0x00008004 ∧
  (∀ n : Byte, (AsmCommand.derive (some n)).word = (n.zeroExtend 32 <<< 8) ||| 0x2) ∧
  (∀ n : Byte, (AsmCommand.encb (some n)).word = (n.zeroExtend 32 <<< 8) ||| 0x3) ∧
  (∀ n : Byte, (AsmCommand.decb (some n)).word = (n.zeroExtend 32 <<< 8) ||| 0x4) ∧
  ∀ w : Word, (AsmCommand.raw w).word = w

/-- R94–R98, on words written out bit by bit. -/
def Obligations.WrittenWordsDecode : Prop :=
  decode 0b00000000000000000000000000000001 = .ok .gentab ∧
  decode 0b00000000000000000001000000000010 = .ok (.derive 16) ∧
  decode 0b00000000000000000011000000000011 = .ok (.encb 48) ∧
  decode 0b00000000000000001000000000000100 = .ok (.decb 128) ∧
  decode 0b00000000000000000000000100000001 = .error .gentabWithLength ∧
  decode 0b00000000000000000001000000000101 = .error .reservedOpcode ∧
  decode 0b10000000000000000001000000000011 = .error .reservedField

/-! ### Issue -/

/-- R205: the illegal words, and what a write of one to CMD does while BUSY = 0. -/
def Obligations.IllegalWordsRejected : Prop :=
  (∀ w : Word, (∃ err, decode w = .error err) ↔ illegalWord w) ∧
  ∀ (w : Word) (s : State), illegalWord w → s.engine.status.busy = false →
    hostWrite 0x0000 w s =
      .next { s with engine := rejectedEngine w 1 s.engine, responses := .done :: s.responses }

/-- R202, R203, R204: a write of any word to CMD is dropped while BUSY = 1; else it is rejected with the first error of R204's order
(R202), or accepted (R203). -/
def Obligations.IssueFollowsTheOrderOfChecks : Prop :=
  (∀ (w : Word) (f : Status), ∃ code, CodeAtIssue w f code) ∧
  ∀ (w : Word) (s : State),
    (s.engine.status.busy = true →
      hostWrite 0x0000 w s = .next { s with engine := droppedEngine s.engine, responses := .done :: s.responses }) ∧
    (s.engine.status.busy = false → ∀ code, CodeAtIssue w s.engine.status code → code ≠ 0 →
      hostWrite 0x0000 w s =
        .next { s with engine := rejectedEngine w code s.engine, responses := .done :: s.responses }) ∧
    (s.engine.status.busy = false → CodeAtIssue w s.engine.status 0 →
      ∃ i t, decode w = .ok i ∧ hostWrite 0x0000 w s = .next t ∧ t.engine.cmd = w ∧
        t = { s with
              engine := acceptedEngine i s.engine, delay := t.delay, draws := t.draws,
              responses := .done :: s.responses })

/-- R206–R209: the command forms that are rejected while BUSY = 0, each with its code, and nothing else changed. -/
def Obligations.RejectedForms : Prop :=
  ∀ s : State, s.engine.status.busy = false →
    (∀ i, i ≠ .gentab → s.engine.status.tablesValid = false →
      exec i s = .next { s with engine := rejectedEngine (encode i) 2 s.engine }) ∧
    (∀ len : Byte, s.engine.status.tablesValid = true → len ≠ 16 →
      exec (.derive len) s = .next { s with engine := rejectedEngine (encode (.derive len)) 3 s.engine }) ∧
    (∀ (i : Instr) (len : Byte), i = .encb len ∨ i = .decb len → s.engine.status.tablesValid = true →
      (len = 0 ∨ len.toNat % 16 ≠ 0 ∨ len.toNat > 128) →
      exec i s = .next { s with engine := rejectedEngine (encode i) 4 s.engine }) ∧
    (∀ (i : Instr) (len : Byte), i = .encb len ∨ i = .decb len → s.engine.status.tablesValid = true →
      legalBatch len.toNat → s.engine.status.keysValid = false →
      exec i s = .next { s with engine := rejectedEngine (encode i) 5 s.engine })

/-- R84, R210, for every command: while BUSY = 1 it is dropped, and only STICKY[6] changes. -/
def Obligations.CommandDroppedWhileBusy : Prop :=
  ∀ (i : Instr) (s : State), s.engine.status.busy = true → exec i s = .next { s with engine := droppedEngine s.engine }

/-- The frame of issue, on every path (R202, R203, R210): every register but CMD and STATUS reads as before, CMD is the command's word
or unchanged, the valid flags, the lanes and the round counter are unchanged, and so is everything outside the engine but the
counters of the model. -/
def Obligations.IssueFrame : Prop :=
  ∀ (i : Instr) (s t : State), exec i s = .next t →
    (∀ r : Reg, r ≠ .cmd → r ≠ .status → t.engine.readReg r = s.engine.readReg r) ∧
    t.engine.cmd = (if s.engine.status.busy then s.engine.cmd else encode i) ∧
    t.engine.status.tablesValid = s.engine.status.tablesValid ∧ t.engine.status.keysValid = s.engine.status.keysValid ∧
    t.engine.masterKey = s.engine.masterKey ∧ t.engine.rk = s.engine.rk ∧ t.engine.bin = s.engine.bin ∧
    t.engine.bout = s.engine.bout ∧ t.engine.tables = s.engine.tables ∧
    t.engine.lanes = s.engine.lanes ∧ t.engine.round = s.engine.round ∧
    t.engineBase = s.engineBase ∧ t.inputs = s.inputs ∧ t.responses = s.responses

/-! ### The four commands, from issue to completion -/

/-- GENTAB runs (R123, R203, R255): it is accepted whenever BUSY = 0, and its completion writes T0..T3 by R124 and R125, sets
TABLES_VALID, clears BUSY, and changes nothing else. -/
def Obligations.GentabRuns : Prop :=
  ∀ s : State, s.engine.status.busy = false →
    ∃ t u, exec .gentab s = .next t ∧ t.engine = acceptedEngine .gentab s.engine ∧ complete t = .next u ∧
      (∀ i : Byte,
        lookup u.engine.tables.t0 i = diffuse (sbox i ++ 0#24) ∧
        lookup u.engine.tables.t1 i = rotl (lookup u.engine.tables.t0 i) 8 ∧
        lookup u.engine.tables.t2 i = rotl (lookup u.engine.tables.t0 i) 16 ∧
        lookup u.engine.tables.t3 i = rotl (lookup u.engine.tables.t0 i) 24) ∧
      u = { s with
            engine := { s.engine with
              cmd := 0x00000001, latch := none, tables := u.engine.tables,
              status := { s.engine.status with busy := false, errcode := 0, tablesValid := true } },
            delay := u.delay, draws := u.draws }

/-- DERIVE 16 runs (R143, R203, R255): it is accepted when BUSY = 0 and TABLES_VALID = 1, and its completion writes RK[i] = K[i+4] for
the sequence K of R143, sets KEYS_VALID, clears BUSY, and changes nothing else. -/
def Obligations.DeriveRuns : Prop :=
  ∀ s : State, s.engine.status.busy = false → s.engine.status.tablesValid = true →
    ∃ t u, exec (.derive 16) s = .next t ∧ t.engine = acceptedEngine (.derive 16) s.engine ∧ complete t = .next u ∧
      (∃ K, IsKeySequence s.engine.masterKey K ∧ ∀ i : Fin 32, u.engine.rk[i] = K (i + 4)) ∧
      u = { s with
            engine := { s.engine with
              cmd := 0x00001002, latch := none, rk := u.engine.rk,
              status := { s.engine.status with busy := false, errcode := 0, keysValid := true } },
            delay := u.delay, draws := u.draws }

/-- ENCB runs (R167, R174, R203, R255): it is accepted when BUSY = 0, both valid flags are 1 and LEN is 16, 32, ..., 128, and its
completion writes BOUT[b] = Crypt(BIN[b], RK) in the active lanes and 0 in the others, clears BUSY, and changes nothing else but
the lane registers and the round counter, which are unspecified then (R39). -/
def Obligations.EncbRuns : Prop :=
  ∀ (s : State) (len : Byte), s.engine.status.busy = false → s.engine.status.tablesValid = true →
    s.engine.status.keysValid = true → legalBatch len.toNat →
    ∃ t u, exec (.encb len) s = .next t ∧ t.engine = acceptedEngine (.encb len) s.engine ∧ complete t = .next u ∧
      (∀ b : Fin 8, u.engine.bout[b] = batchResult s.engine.tables (len.toNat / 16) s.engine.bin s.engine.rk b) ∧
      u = { s with
            engine := { s.engine with
              cmd := encode (.encb len), latch := none, bout := u.engine.bout,
              status := { s.engine.status with busy := false, errcode := 0 },
              lanes := u.engine.lanes, round := u.engine.round },
            delay := u.delay, draws := u.draws }

/-- DECB runs (R168, R174, R203, R255): as ENCB, with the round keys in reverse order (R164). -/
def Obligations.DecbRuns : Prop :=
  ∀ (s : State) (len : Byte), s.engine.status.busy = false → s.engine.status.tablesValid = true →
    s.engine.status.keysValid = true → legalBatch len.toNat →
    ∃ t u, exec (.decb len) s = .next t ∧ t.engine = acceptedEngine (.decb len) s.engine ∧ complete t = .next u ∧
      (∀ b : Fin 8,
        u.engine.bout[b] = batchResult s.engine.tables (len.toNat / 16) s.engine.bin s.engine.rk.reverse b) ∧
      u = { s with
            engine := { s.engine with
              cmd := encode (.decb len), latch := none, bout := u.engine.bout,
              status := { s.engine.status with busy := false, errcode := 0 },
              lanes := u.engine.lanes, round := u.engine.round },
            delay := u.delay, draws := u.draws }

/-- The frame of completion (R123, R143, R167, R168): every register but STATUS that the latched command does not write holds what it
held, and so does every field of STATUS but BUSY and the valid flag that the command sets. -/
def Obligations.CompletionFrame : Prop :=
  ∀ s t : State, complete s = .next t →
    (∀ r : Reg, r ≠ .status → (∀ i, s.engine.latch = some i → Instr.writesReg i r = false) →
      t.engine.readReg r = s.engine.readReg r) ∧
    (s.engine.latch ≠ some .gentab → t.engine.status.tablesValid = s.engine.status.tablesValid) ∧
    ((∀ len, s.engine.latch ≠ some (.derive len)) → t.engine.status.keysValid = s.engine.status.keysValid) ∧
    t.engine.status.busy = false ∧ t.engine.latch = none ∧ t.engine.status.errcode = s.engine.status.errcode ∧
    t.engine.status.sticky = s.engine.status.sticky ∧ t.engineBase = s.engineBase ∧ t.inputs = s.inputs ∧
    t.responses = s.responses

/-! ### The cipher -/

/-- R122: SBOX is a permutation of the bytes, and its examples. -/
def Obligations.SboxIsAPermutation : Prop :=
  (∀ y : Byte, ∃ x : Byte, sbox x = y ∧ ∀ x' : Byte, sbox x' = y → x' = x) ∧
  sbox 0x00 = 0xD6 ∧ sbox 0x01 = 0x90 ∧ sbox 0x80 = 0xEA ∧ sbox 0xFF = 0x48 ∧ sbox 0x71 = 0x00

/-- R11: rotl moves bit i to bit i + n modulo 32. -/
def Obligations.RotlMovesBits : Prop :=
  ∀ (x : Word) (n i : Nat), n < 32 → i < 32 → (rotl x n).getLsbD ((i + n) % 32) = x.getLsbD i

/-- R127: L commutes with rotation, and what each table GENTAB leaves contributes. -/
def Obligations.TablesHoldByteContributions : Prop :=
  (∀ (x : Word) (n : Nat), n < 32 → diffuse (rotl x n) = rotl (diffuse x) n) ∧
  ∀ i : Byte,
    lookup gentabTables.t0 i = diffuse (sbox i ++ 0#24) ∧ lookup gentabTables.t3 i = diffuse (0#8 ++ sbox i ++ 0#16) ∧
    lookup gentabTables.t2 i = diffuse (0#16 ++ sbox i ++ 0#8) ∧ lookup gentabTables.t1 i = diffuse (0#24 ++ sbox i)

/-- R161: the four lookups compute L(tau(x)) on every word. -/
def Obligations.TableRoundIsLOfTau : Prop :=
  (∀ x : Word, tVec gentabTables x = diffuse (tau x)) ∧ tVec gentabTables 0x00000000 = 0x5B5B5B5B

/-- R172: one active lane of ENCB in the single-sequence notation. -/
def Obligations.EncbInSequenceNotation : Prop :=
  ∀ (e : Engine) (n : Nat) (b : Fin 8), b.val < n →
    ∃ X : Nat → Word,
      (∀ j : Fin 4, X j = e.bin[b][j]) ∧
      (∀ i : Fin 32, X (i + 4) = X i ^^^ tVec e.tables (X (i + 1) ^^^ X (i + 2) ^^^ X (i + 3) ^^^ e.rk[i])) ∧
      (runBatch n id e).bout[b] = #v[X 35, X 34, X 33, X 32]

/-- R170: the round network undoes itself under reversed round keys, for any tables, keys and block. -/
def Obligations.ReversedKeysInvertTheCipher : Prop :=
  ∀ (t : Tables) (ks : Vector Word 32) (p : Block), crypt t (crypt t p ks) ks.reverse = p

/-- R169: what a lane gives depends on its block, the round keys, the direction and the tables alone: not on the other lanes, the
size of the batch, or the lane's number. -/
def Obligations.LanesAreIndependent : Prop :=
  ∀ (e e' : Engine) (n n' : Nat) (b b' : Fin 8) (order : Fin 32 → Fin 32), order = id ∨ order = Fin.rev →
    b.val < n → b'.val < n' → e.bin[b] = e'.bin[b'] → e.rk = e'.rk → e.tables = e'.tables →
    (runBatch n order e).bout[b] = (runBatch n' order e').bout[b']

/-- R170 on the machine: an ENCB completed, its BOUT copied to BIN, and a DECB of the same length completed under the same round keys
leave the first batch in BOUT, in every active lane. -/
def Obligations.DecbUndoesEncb : Prop :=
  ∀ (s : State) (len : Byte), s.engine.status.busy = false → s.engine.status.tablesValid = true →
    s.engine.status.keysValid = true → legalBatch len.toNat →
    ∃ t u t' u', exec (.encb len) s = .next t ∧ complete t = .next u ∧
      exec (.decb len) { u with engine := { u.engine with bin := u.engine.bout } } = .next t' ∧ complete t' = .next u' ∧
      ∀ b : Fin 8, b.val < len.toNat / 16 → u'.engine.bout[b] = s.engine.bin[b]

/-- Vector V1 of 95_test_vectors.md: the known-answer key and plaintext give the known ciphertext, with the tables of GENTAB and the
round keys of DERIVE. -/
def Obligations.KnownAnswer : Prop := crypt gentabTables knownKey (keySchedule knownKey) = knownCiphertext

/-! ### The register window -/

/-- R62: the register map: each register's offset and access, and that an offset names a register exactly where the map has one. -/
def Obligations.RegisterMap : Prop :=
  (Reg.cmd.offset = 0x0000 ∧ Reg.status.offset = 0x0004 ∧ (∀ j : Fin 4, (Reg.mk j).offset = 0x0010 + 4 * j) ∧
    (∀ i : Fin 32, (Reg.rk i).offset = 0x0080 + 4 * i) ∧
    (∀ (b : Fin 8) (j : Fin 4), (Reg.bin b j).offset = 0x0100 + 16 * b + 4 * j ∧
      (Reg.bout b j).offset = 0x0180 + 16 * b + 4 * j) ∧
    ∀ i : Fin 256, (Reg.sbox i).offset = 0x0400 + 4 * i ∧ (Reg.t0 i).offset = 0x1000 + 4 * i ∧
      (Reg.t1 i).offset = 0x1400 + 4 * i ∧ (Reg.t2 i).offset = 0x1800 + 4 * i ∧ (Reg.t3 i).offset = 0x1C00 + 4 * i) ∧
  (∀ r : Reg, r.writable = true ↔ r = .cmd ∨ r = .status ∨ (∃ j, r = .mk j) ∨ ∃ b j, r = .bin b j) ∧
  (∀ r : Reg, r.offset % 4 = 0 ∧ r.offset < 0x2000 ∧ regAt r.offset = some r) ∧
  ∀ (off : Nat) (r : Reg), off % 4 = 0 → regAt off = some r → off = r.offset

/-- R63: an access inside the window is admitted exactly when its width, alignment, register and direction allow it; otherwise it is a
BusError and changes no engine state. -/
def Obligations.AdmissionOfAccesses : Prop :=
  ∀ (s : State) (off width : Nat) (k : AccessKind), off < 0x2000 →
    ((width = 32 ∧ off % 4 = 0 ∧ ∃ r : Reg, r.offset = off ∧ (k = .read ∨ r.writable = true)) →
      ∃ t rsp, hostAccess ⟨s.engineBase + off, width, k⟩ s = .next t ∧ t.responses = rsp :: s.responses ∧ rsp ≠ .busError) ∧
    (¬ (width = 32 ∧ off % 4 = 0 ∧ ∃ r : Reg, r.offset = off ∧ (k = .read ∨ r.writable = true)) →
      hostAccess ⟨s.engineBase + off, width, k⟩ s = .next { s with responses := .busError :: s.responses })

/-- R66: every access to a reserved offset is a BusError, and nothing else happens. -/
def Obligations.ReservedOffsetsAreBusErrors : Prop :=
  ∀ (s : State) (off width : Nat) (k : AccessKind),
    (0x0008 ≤ off ∧ off ≤ 0x000F) ∨ (0x0020 ≤ off ∧ off ≤ 0x007F) ∨ (0x0200 ≤ off ∧ off ≤ 0x03FF) ∨
      (0x0800 ≤ off ∧ off ≤ 0x0FFF) →
    hostAccess ⟨s.engineBase + off, width, k⟩ s = .next { s with responses := .busError :: s.responses }

/-- R61: an access outside the window does not reach the engine. The response `notDecoded` is the model's (log 8). -/
def Obligations.OutsideTheWindow : Prop :=
  ∀ (s : State) (addr width : Nat) (k : AccessKind), addr < s.engineBase ∨ s.engineBase + 0x2000 ≤ addr →
    hostAccess ⟨addr, width, k⟩ s = .next { s with responses := .notDecoded :: s.responses }

/-- R64, R69, R70, R83: the reads that return a register's value, at any time or under the condition the rules give, and change
nothing. -/
def Obligations.ReadsReturnRegisters : Prop :=
  ∀ s : State,
    (hostRead 0x0000 s = .next { s with responses := .data s.engine.cmd :: s.responses }) ∧
    (hostRead 0x0004 s = .next { s with responses := .data s.engine.status.word :: s.responses }) ∧
    (∀ j : Fin 4, hostRead (0x0010 + 4 * j) s = .next { s with responses := .data s.engine.masterKey[j] :: s.responses }) ∧
    (∀ (b : Fin 8) (j : Fin 4),
      hostRead (0x0100 + 16 * b + 4 * j) s = .next { s with responses := .data s.engine.bin[b][j] :: s.responses }) ∧
    (∀ i : Fin 256,
      hostRead (0x0400 + 4 * i) s = .next { s with responses := .data (0#24 ++ sbox (.ofFin i)) :: s.responses }) ∧
    (∀ i : Fin 32, s.engine.status.keysValid = true →
      (s.engine.status.busy = false ∨ ∀ len, s.engine.latch ≠ some (.derive len)) →
      hostRead (0x0080 + 4 * i) s = .next { s with responses := .data s.engine.rk[i] :: s.responses }) ∧
    (∀ (b : Fin 8) (j : Fin 4),
      (s.engine.status.busy = false ∨ ∀ len, s.engine.latch ≠ some (.encb len) ∧ s.engine.latch ≠ some (.decb len)) →
      hostRead (0x0180 + 16 * b + 4 * j) s = .next { s with responses := .data s.engine.bout[b][j] :: s.responses }) ∧
    (∀ i : Fin 256, s.engine.status.tablesValid = true →
      (s.engine.status.busy = false ∨ s.engine.latch ≠ some .gentab) →
      hostRead (0x1000 + 4 * i) s = .next { s with responses := .data s.engine.tables.t0[i] :: s.responses } ∧
      hostRead (0x1400 + 4 * i) s = .next { s with responses := .data s.engine.tables.t1[i] :: s.responses } ∧
      hostRead (0x1800 + 4 * i) s = .next { s with responses := .data s.engine.tables.t2[i] :: s.responses } ∧
      hostRead (0x1C00 + 4 * i) s = .next { s with responses := .data s.engine.tables.t3[i] :: s.responses })

/-- R64, R70, R83: the reads that return an unspecified value complete, with a fresh free value, and change nothing else. The form of
that value, a free word of the engine's base and its draw counter, is the model's choice (log 5). -/
def Obligations.UnspecifiedReadsAreFree : Prop :=
  ∀ (s : State) (r : Reg),
    ((∃ i, r = .rk i) ∧ (s.engine.status.keysValid = false ∨
      (s.engine.status.busy = true ∧ ∃ len, s.engine.latch = some (.derive len)))) ∨
    ((∃ i, r = .t0 i ∨ r = .t1 i ∨ r = .t2 i ∨ r = .t3 i) ∧ (s.engine.status.tablesValid = false ∨
      (s.engine.status.busy = true ∧ s.engine.latch = some .gentab))) ∨
    ((∃ b j, r = .bout b j) ∧ s.engine.status.busy = true ∧
      ∃ len, s.engine.latch = some (.encb len) ∨ s.engine.latch = some (.decb len)) →
    hostRead r.offset s =
      .next { s with responses := .data (Config.freeWord s.engineBase s.draws) :: s.responses, draws := s.draws + 1 }

/-- R64, R73: a read, at any address and width, goes on and never changes the engine's state, nor what comes next. -/
def Obligations.ReadsHaveNoSideEffect : Prop :=
  ∀ (s : State) (addr width : Nat),
    ∃ t, hostAccess ⟨addr, width, .read⟩ s = .next t ∧ t.engine = s.engine ∧ t.inputs = s.inputs ∧
      t.engineBase = s.engineBase ∧ t.delay = s.delay

/-- R65: what an admitted write does: CMD stores the word while BUSY = 0 and issues it, STATUS is cleared bit by bit at any time, MK and BIN store the word while
BUSY = 0; nothing else changes. -/
def Obligations.WriteEffects : Prop :=
  ∀ (s : State) (v : Word),
    (hostWrite 0x0000 v s = answered .done (issueWord v s)) ∧
    (s.engine.status.busy = false → ∃ t, hostWrite 0x0000 v s = .next t ∧ t.engine.cmd = v) ∧
    (hostWrite 0x0004 v s =
      .next { s with
        engine := { s.engine with
          status := { s.engine.status with sticky := s.engine.status.sticky &&& ~~~(v.extractLsb' 8 6) } },
        responses := .done :: s.responses }) ∧
    (∀ j : Fin 4, s.engine.status.busy = false →
      hostWrite (0x0010 + 4 * j) v s =
        .next { s with
          engine := { s.engine with masterKey := s.engine.masterKey.set j v }, responses := .done :: s.responses }) ∧
    (∀ (b : Fin 8) (j : Fin 4), s.engine.status.busy = false →
      hostWrite (0x0100 + 16 * b + 4 * j) v s =
        .next { s with
          engine := { s.engine with bin := s.engine.bin.set b (s.engine.bin[b].set j v) },
          responses := .done :: s.responses })

/-- R84, R210: while BUSY = 1 a write to CMD, MK or BIN is dropped: the bus answers as for any write, STICKY[6] is set, and nothing
else changes; ERRCODE is then 0 in every state that meets the invariant. A write to STATUS is not dropped. -/
def Obligations.BusyWritesAreDropped : Prop :=
  ∀ (s : State) (v : Word), s.engine.status.busy = true →
    (∀ r : Reg, (r = .cmd ∨ (∃ j, r = .mk j) ∨ ∃ b j, r = .bin b j) →
      hostWrite r.offset v s = .next { s with engine := droppedEngine s.engine, responses := .done :: s.responses }) ∧
    (Coherent s → (droppedEngine s.engine).status.errcode = 0) ∧
    hostWrite 0x0004 v s =
      .next { s with
        engine := { s.engine with
          status := { s.engine.status with sticky := s.engine.status.sticky &&& ~~~(v.extractLsb' 8 6) } },
        responses := .done :: s.responses }

/-- R31, R68, R101: LDKEY on an idle engine writes the key, big-endian word by word, to MK, and nothing else. -/
def Obligations.LoadKeyScript : Prop :=
  ∀ (s : State) (k : BitVec 128) (rest : List Input), s.engine.status.busy = false →
    s.inputs = hostLdKey s.engineBase k ++ rest →
    ∃ t, runSteps 4 s = .next t ∧ (∀ j : Fin 4, t.engine.masterKey[j] = k.extractLsb' (96 - 32 * j.val) 32) ∧
      t = { s with
            engine := { s.engine with masterKey := t.engine.masterKey }, inputs := rest, delay := t.delay,
            responses := [.done, .done, .done, .done] ++ s.responses }

/-- R33, R67, R101: LDBLK b on an idle engine writes the block, big-endian word by word, to BIN[b], and nothing else. -/
def Obligations.LoadBlockScript : Prop :=
  ∀ (s : State) (b : Fin 8) (p : BitVec 128) (rest : List Input), s.engine.status.busy = false →
    s.inputs = hostLdBlk s.engineBase b p ++ rest →
    ∃ t, runSteps 4 s = .next t ∧ (∀ j : Fin 4, t.engine.bin[b][j] = p.extractLsb' (96 - 32 * j.val) 32) ∧
      (∀ c : Fin 8, c ≠ b → t.engine.bin[c] = s.engine.bin[c]) ∧
      t = { s with
            engine := { s.engine with bin := t.engine.bin }, inputs := rest, delay := t.delay,
            responses := [.done, .done, .done, .done] ++ s.responses }

/-- R34, R67, R101: RDBLK b on an idle engine reads BOUT[b], big-endian word by word, and changes nothing of the engine. -/
def Obligations.ReadBlockScript : Prop :=
  ∀ (s : State) (b : Fin 8) (rest : List Input), s.engine.status.busy = false →
    s.inputs = hostRdBlk s.engineBase b ++ rest →
    ∃ t rs c, runSteps 4 s = .next t ∧ rdBlkValue rs = some c ∧
      (∀ j : Fin 4, c.extractLsb' (96 - 32 * j.val) 32 = s.engine.bout[b][j]) ∧
      t = { s with inputs := rest, delay := t.delay, responses := rs.reverse ++ s.responses }

/-! ### STATUS -/

/-- R24: the fields of the STATUS word. -/
def Obligations.StatusLayout : Prop :=
  ∀ f : Status,
    f.word.getLsbD 0 = f.busy ∧ f.word.getLsbD 1 = f.tablesValid ∧ f.word.getLsbD 2 = f.keysValid ∧
    f.word.getLsbD 3 = false ∧ f.word.extractLsb' 4 3 = f.errcode ∧ f.word.getLsbD 7 = false ∧
    f.word.extractLsb' 8 6 = f.sticky ∧ f.word.extractLsb' 14 18 = 0

/-- R29, R30: a host write to STATUS, at any time, clears the STICKY bits written with 1 and no other bit of the word; bits 3, 7 and
31:14 read as 0. -/
def Obligations.StatusWriteClearsOnlySticky : Prop :=
  ∀ (s : State) (v : Word),
    s.engine.status.word &&& 0xFFFFC088 = 0 ∧
    ∃ t, hostWrite 0x0004 v s = .next t ∧
      t.engine.status.word = s.engine.status.word &&& ~~~(v &&& 0x00003F00)

/-- R25: BUSY becomes 1 only where a write to CMD is accepted, and 0 only at completion or reset. -/
def Obligations.BusyChangesOnly : Prop :=
  ∀ s t : State, step s = .next t →
    (s.engine.status.busy = false → t.engine.status.busy = true →
      ∃ w, writeNext s .cmd w ∧ CodeAtIssue w s.engine.status 0) ∧
    (s.engine.status.busy = true → t.engine.status.busy = false → s.turn = .completion ∨ resetNext s)

/-- R28: ERRCODE changes only at the issue of a command that is not dropped, or at reset. -/
def Obligations.ErrcodeChangesOnly : Prop :=
  ∀ s t : State, step s = .next t → t.engine.status.errcode ≠ s.engine.status.errcode →
    resetNext s ∨ (s.engine.status.busy = false ∧ ∃ w, writeNext s .cmd w)

/-- R29, R212: a STICKY bit that is set goes away only by a host write to STATUS with a 1 in that bit, or by reset. STICKY[k] is bit
7+k of STATUS and of the written word. -/
def Obligations.StickyClearedOnly : Prop :=
  ∀ (s t : State) (k : Nat), step s = .next t → 1 ≤ k → k ≤ 6 →
    s.engine.status.word.getLsbD (7 + k) = true → t.engine.status.word.getLsbD (7 + k) = false →
    resetNext s ∨ ∃ v : Word, writeNext s .status v ∧ v.getLsbD (7 + k) = true

/-- R26, R27, R243: only reset clears TABLES_VALID and KEYS_VALID, and each is set only at the completion of its command. -/
def Obligations.ValidFlagsChangeOnly : Prop :=
  ∀ s t : State, step s = .next t →
    (s.engine.status.tablesValid = true → t.engine.status.tablesValid = false → resetNext s) ∧
    (s.engine.status.keysValid = true → t.engine.status.keysValid = false → resetNext s) ∧
    (s.engine.status.tablesValid = false → t.engine.status.tablesValid = true →
      s.turn = .completion ∧ s.engine.latch = some .gentab) ∧
    (s.engine.status.keysValid = false → t.engine.status.keysValid = true →
      s.turn = .completion ∧ ∃ len, s.engine.latch = some (.derive len))

/-- R31–R34, R36, R146: what changes MK, RK, BIN, BOUT and the tables: the host's writes while BUSY = 0 for MK and BIN, the completion of
the one command that writes them for the others, or reset; and RK is then a function of MK alone. -/
def Obligations.StoresChangeOnly : Prop :=
  ∀ s t : State, step s = .next t → ¬ resetNext s →
    (t.engine.masterKey ≠ s.engine.masterKey → s.engine.status.busy = false ∧ ∃ j v, writeNext s (.mk j) v) ∧
    (t.engine.bin ≠ s.engine.bin → s.engine.status.busy = false ∧ ∃ b j v, writeNext s (.bin b j) v) ∧
    (t.engine.rk ≠ s.engine.rk →
      s.turn = .completion ∧ (∃ len, s.engine.latch = some (.derive len)) ∧ t.engine.rk = keySchedule s.engine.masterKey) ∧
    (t.engine.bout ≠ s.engine.bout →
      s.turn = .completion ∧ ∃ len, s.engine.latch = some (.encb len) ∨ s.engine.latch = some (.decb len)) ∧
    (t.engine.tables ≠ s.engine.tables → s.turn = .completion ∧ s.engine.latch = some .gentab)

/-! ### Steps and runs -/

/-- A step runs the decoded command: where the next event is the host's write of w to CMD and w decodes to i, the step is `exec i`, on
the state with that input taken, and the bus answers the write (R90, R204). And the word `withFetchWord` places is run by the
very next step, on the state it was placed on. -/
def Obligations.StepRunsTheDecodedCommand : Prop :=
  (∀ (s : State) (rest : List Input) (w : Word) (i : Instr),
    s.turn = .outside (.access ⟨s.engineBase, 32, .write w⟩) rest → decode w = .ok i →
    step s = answered .done (exec i (s.takeInput rest))) ∧
  ∀ (s : State) (w : Word) (i : Instr), decode w = .ok i →
    step (s.withFetchWord 32 w.toNat) = answered .done (exec i s)

/-- R255: completion is a step of a busy engine alone. The second clause is no rule of the spec: that completion is next once the
delay has passed or no input is left is the model's choice (log 6). -/
def Obligations.CompletionStep : Prop :=
  ∀ s : State,
    (s.turn = .completion → s.engine.status.busy = true ∧ step s = complete s) ∧
    (s.engine.status.busy = true → s.inputs = [] ∨ s.delay = 0 → s.turn = .completion)

/-- R101: POLL reads STATUS, and comes again exactly while BUSY = 1; it changes nothing of the engine. -/
def Obligations.PollStep : Prop :=
  ∀ (s : State) (rest : List Input), s.turn = .outside .poll rest →
    ∃ t, step s = .next t ∧ t.engine = s.engine ∧ t.responses = .data s.engine.status.word :: s.responses ∧
      t.inputs = if s.engine.status.busy then .poll :: rest else rest

/-- R211, R256: from a state that meets the invariant, a running command ends. That it does within delay + 1 steps is the model's
choice (log 6); the spec gives no bound. -/
def Obligations.RunningCommandEnds : Prop :=
  ∀ s : State, Coherent s → s.engine.status.busy = true →
    ∃ n t, n ≤ s.delay + 1 ∧ runSteps n s = .next t ∧ t.engine.status.busy = false

/-- R85: while a command runs, no step changes anything of the engine but STICKY. -/
def Obligations.RunningCommandKeepsTheEngine : Prop :=
  ∀ (n : Nat) (s t : State), s.engine.status.busy = true →
    (∀ k, k ≤ n → ∃ u, runSteps k s = .next u ∧ u.engine.status.busy = true) → runSteps n s = .next t →
    t.engine = { s.engine with status := { s.engine.status with sticky := t.engine.status.sticky } }

/-- R85, R255: whatever the host does between a command's acceptance and its completion, the result is that of the values at
acceptance. -/
def Obligations.ResultIsOfTheValuesAtAcceptance : Prop :=
  ∀ (i : Instr) (s t u v : State) (n : Nat), s.engine.status.busy = false → exec i s = .next t →
    (∀ k, k ≤ n → ∃ x, runSteps k t = .next x ∧ x.engine.status.busy = true) → runSteps n t = .next u →
    u.turn = .completion → step u = .next v →
    ResultOf i s.engine v.engine ∧ v.engine.status.busy = false

/-- The invariant holds after reset (R41, R44). ENGINE_BASE's value there is the model's choice (log 1). -/
def Obligations.ResetMeetsTheInvariant : Prop := Coherent State.reset

/-- R38, R44, R201, R210, R251: every step keeps the invariant. -/
def Obligations.EveryStepKeepsTheInvariant : Prop := ∀ s t : State, Coherent s → step s = .next t → Coherent t

/-- R44: where the invariant holds, valid tables are those of R124 and R125, and valid round keys are the schedule of a master key,
whenever BUSY = 0. -/
def Obligations.ValidStoresHoldTheirValues : Prop :=
  ∀ s : State, Coherent s → s.engine.status.busy = false →
    (s.engine.status.tablesValid = true →
      ∀ i : Byte,
        lookup s.engine.tables.t0 i = diffuse (sbox i ++ 0#24) ∧
        lookup s.engine.tables.t1 i = rotl (lookup s.engine.tables.t0 i) 8 ∧
        lookup s.engine.tables.t2 i = rotl (lookup s.engine.tables.t0 i) 16 ∧
        lookup s.engine.tables.t3 i = rotl (lookup s.engine.tables.t0 i) 24) ∧
    (s.engine.status.keysValid = true →
      ∃ mk K, IsKeySequence mk K ∧ ∀ i : Fin 32, s.engine.rk[i] = K (i + 4))

/-- R200, R211: from a state that meets the invariant the machine always goes on: no step faults or is refused. -/
def Obligations.TheMachineNeverStops : Prop := ∀ s : State, Coherent s → ∃ t, step s = .next t

/-- R240, R41: the reset event, at any time: the values the spec gives, and no command pending; a running command leaves nothing. The
last clause, that the inputs to come, the responses and the base stay as they were, is the model's choice (log 14). -/
def Obligations.ResetEvent : Prop :=
  ∀ (s : State) (rest : List Input), s.turn = .outside .reset rest →
    ∃ t, step s = .next t ∧ t.engine.cmd = 0 ∧
      t.engine.status = { busy := false, tablesValid := false, keysValid := false, errcode := 0, sticky := 0 } ∧
      t.engine.status.word = 0 ∧ t.engine.latch = none ∧
      (∀ j : Fin 4, t.engine.masterKey[j] = 0) ∧
      (∀ (b : Fin 8) (j : Fin 4), t.engine.bin[b][j] = 0 ∧ t.engine.bout[b][j] = 0) ∧
      t.inputs = rest ∧ t.responses = s.responses ∧ t.engineBase = s.engineBase

/-- R242: after the reset event GENTAB is accepted, and every other command is rejected with UNINITIALIZED_TABLES. -/
def Obligations.AfterResetOnlyGentab : Prop :=
  ∀ (s t : State) (i : Instr), resetNext s → step s = .next t →
    (∃ u, exec .gentab t = .next u ∧ u.engine = acceptedEngine .gentab t.engine) ∧
    (i ≠ .gentab → exec i t = .next { t with engine := rejectedEngine (encode i) 2 t.engine })

/-! ### Several engines -/

/-- R228: the partition, and that it covers the batches: the ranges are contiguous and in order from 0, the counts add up, and no two differ by more
than 1. -/
def Obligations.PartitionCoversTheBatches : Prop :=
  ∀ batches workers : Nat, 1 ≤ workers →
    (∀ w, w < workers →
      Partitioner.count batches workers w = (if w < batches % workers then batches / workers + 1 else batches / workers) ∧
      Partitioner.start batches workers w = w * (batches / workers) + min w (batches % workers)) ∧
    Partitioner.start batches workers 0 = 0 ∧
    (∀ w, w + 1 < workers →
      Partitioner.start batches workers (w + 1) = Partitioner.start batches workers w + Partitioner.count batches workers w) ∧
    ((List.range workers).map (Partitioner.count batches workers)).sum = batches ∧
    ∀ w w', w < workers → w' < workers → Partitioner.count batches workers w ≤ Partitioner.count batches workers w' + 1

/-- R82, R224, R231: engines share no state: a step of one leaves every other as it was, and steps of two engines can be made in
either order. -/
def Obligations.EnginesShareNothing : Prop :=
  (∀ (sys sys' : System) (k j : Nat), sys.stepAt k = .next sys' → j ≠ k → sys'.engines[j]? = sys.engines[j]?) ∧
  ∀ (sys sys' : System) (k j : Nat), j ≠ k → sys.runAlong [k, j] = .next sys' → sys.runAlong [j, k] = .next sys'

/-- R226, R232: the driver's checks up front: a buffer that is no whole number of blocks is reported; so is an engine it would use
without both valid flags or with another MK, under a name of the model's (log 15). Engines it would not use are not checked. -/
def Obligations.DriverChecksFirst : Prop :=
  ∀ (d : Partitioner.Direction) (bytes : List Byte) (requested : Option Nat) (first last : List Nat) (sys : System),
    (bytes.length % 16 ≠ 0 → processBuffer d bytes requested first last sys = .error .invalidBlockCount) ∧
    (bytes.length % 16 = 0 →
      (∃ s s', s ∈ sys.engines.take (Partitioner.workerCount sys.engines.length requested) ∧
        s' ∈ sys.engines.take (Partitioner.workerCount sys.engines.length requested) ∧
        (s.engine.status.tablesValid = false ∨ s.engine.status.keysValid = false ∨
          s'.engine.masterKey ≠ s.engine.masterKey)) →
      processBuffer d bytes requested first last sys = .error .notReady) ∧
    ∀ (unused : List State) (n : Nat), n ≤ sys.engines.length →
      (System.mk (sys.engines ++ unused)).ready n = sys.ready n

/-- R229, R230, R231: on engines prepared alike, with both valid flags, the driver's output is the cipher of each block at the
block's place, whatever the number of workers and the order in which the engines move; and there are orders in which it returns. The
orders, and the driver as one function, are the model's (log 15). -/
def Obligations.DriverOutputIsBlockwise : Prop :=
  ∀ (d : Partitioner.Direction) (mk : Block) (bytes : List Byte) (requested : Option Nat) (sys : System),
    bytes.length % 16 = 0 → sys.engines ≠ [] →
    (∀ s, s ∈ sys.engines.take (Partitioner.workerCount sys.engines.length requested) →
      Prepared mk s ∧ s.engine.status.tablesValid = true ∧ s.engine.status.keysValid = true) →
    (∀ first last out, processBuffer d bytes requested first last sys = .ok (some out) → out = outputBytes d mk bytes) ∧
    ∃ first last, processBuffer d bytes requested first last sys = .ok (some (outputBytes d mk bytes))
end

