-- ==== Sys2Proof/Laws/Cipher.lean ====
section
/-! SUPPORT. The cipher's data: the table entries, rotation and diffusion over exclusive or, the key schedule as one sequence, and
one lane of the batch datapath as a fold of single-block rounds. -/

namespace Sys2Proof.Machine

/-! ### Tables -/

theorem lookup_ofFn (f : Fin 256 → Word) (i : Byte) : lookup (Vector.ofFn f) i = f i.toFin := by simp [lookup]

theorem shift_byte_to_top (b : Byte) : b.zeroExtend 32 <<< 24 = b ++ 0#24 := by revert b; decide +kernel

theorem zeroExtend_byte (b : Byte) : b.zeroExtend 32 = 0#24 ++ b := by revert b; decide +kernel

theorem tableEntry_eq (i : Byte) : tableEntry i = diffuse (sbox i ++ 0#24) := by rw [tableEntry, shift_byte_to_top]

theorem lookup_gentab_t0 (i : Byte) : lookup gentabTables.t0 i = tableEntry i := lookup_ofFn _ i
theorem lookup_gentab_t1 (i : Byte) : lookup gentabTables.t1 i = rotl (tableEntry i) 8 := lookup_ofFn _ i
theorem lookup_gentab_t2 (i : Byte) : lookup gentabTables.t2 i = rotl (tableEntry i) 16 := lookup_ofFn _ i
theorem lookup_gentab_t3 (i : Byte) : lookup gentabTables.t3 i = rotl (tableEntry i) 24 := lookup_ofFn _ i

/-! ### Rotation and diffusion -/

theorem rotl_xor (x y : Word) (n : Nat) : rotl (x ^^^ y) n = rotl x n ^^^ rotl y n := by
  apply BitVec.eq_of_getLsbD_eq
  intro i hi
  simp only [rotl, BitVec.getLsbD_or, BitVec.getLsbD_shiftLeft, BitVec.getLsbD_ushiftRight, BitVec.getLsbD_xor, hi]
  by_cases h : i < n
  · simp [h]
  · rw [BitVec.getLsbD_of_ge x (32 - n + i) (by omega), BitVec.getLsbD_of_ge y (32 - n + i) (by omega)]
    simp [h]

theorem diffuse_xor (x y : Word) : diffuse (x ^^^ y) = diffuse x ^^^ diffuse y := by
  simp only [diffuse, rotl_xor]
  ac_rfl

/-- A byte in the top byte, rotated to the other three. -/
theorem rotl_top_byte (b : Byte) :
    rotl (b ++ 0#24) 24 = 0#8 ++ b ++ 0#16 ∧ rotl (b ++ 0#24) 16 = 0#16 ++ b ++ 0#8 ∧ rotl (b ++ 0#24) 8 = 0#24 ++ b := by
  revert b
  decide +kernel

/-! ### The key schedule -/

/-- K[0..] of R143 as one sequence. -/
def keySequence (mk : Block) : Nat → Word
  | 0 => (keyStart mk).k0
  | 1 => (keyStart mk).k1
  | 2 => (keyStart mk).k2
  | n + 3 => (keyWindow mk n).k3

theorem keyWindow_eq_sequence (mk : Block) (n : Nat) :
    keyWindow mk n =
      ⟨keySequence mk n, keySequence mk (n + 1), keySequence mk (n + 2), keySequence mk (n + 3)⟩ := by
  induction n with
  | zero => rfl
  | succ n ih =>
    have hk : keySequence mk (n + 1 + 3) = (keyStep n (keyWindow mk n)).k3 := rfl
    rw [hk, keyWindow, ih]
    rfl

theorem keySequence_step (mk : Block) (n : Nat) :
    keySequence mk (n + 4) =
      keySequence mk n ^^^
        diffuseKey (tau (keySequence mk (n + 1) ^^^ keySequence mk (n + 2) ^^^ keySequence mk (n + 3) ^^^ ck n)) := by
  have hk : keySequence mk (n + 4) = (keyStep n (keyWindow mk n)).k3 := rfl
  rw [hk, keyWindow_eq_sequence]
  rfl

theorem keySchedule_eq_sequence (mk : Block) (i : Fin 32) : (keySchedule mk)[i] = keySequence mk (i + 4) := by
  simp [keySchedule]
  rfl

/-! ### One lane of a batch -/

/-- The state words of lane b. -/
def laneOf (x : Lanes) (b : Fin 8) : Block := #v[x.x0[b], x.x1[b], x.x2[b], x.x3[b]]

theorem laneOf_loadLanes {n : Nat} (bin : Vector Block 8) (x : Lanes) {b : Fin 8} (h : b.val < n) :
    laneOf (loadLanes n bin x) b = bin[b] := by
  ext j hj
  simp [laneOf, loadLanes, h]
  interval_cases j <;> rfl

theorem laneOf_roundLanes (t : Tables) {n : Nat} (k : Word) (x : Lanes) {b : Fin 8} (h : b.val < n) :
    laneOf (roundLanes t n k x) b = cryptRound t (laneOf x b) k := by
  simp [laneOf, roundLanes, cryptRound, h]

theorem laneOf_rounds {n : Nat} (order : Fin 32 → Fin 32) (rs : List (Fin 32)) (e : Engine) {b : Fin 8} (h : b.val < n) :
    laneOf (rs.foldl (batchRound n order) e).lanes b =
      (rs.map fun r => e.rk[order r]).foldl (cryptRound e.tables) (laneOf e.lanes b) := by
  induction rs generalizing e with
  | nil => rfl
  | cons r rs ih =>
    rw [List.foldl_cons, ih]
    simp only [List.map_cons, List.foldl_cons, batchRound, laneOf_roundLanes _ _ _ h]

/-- What the datapath leaves in BOUT: the fold of single-block rounds in an active lane, 0 in an inactive one. -/
theorem runBatch_bout (n : Nat) (order : Fin 32 → Fin 32) (e : Engine) (b : Fin 8) :
    (runBatch n order e).bout[b] =
      if b.val < n then
        (((List.finRange 32).map fun r => e.rk[order r]).foldl (cryptRound e.tables) e.bin[b]).reverse
      else Vector.replicate 4 0 := by
  by_cases h : b.val < n
  · have hl := laneOf_rounds order (List.finRange 32) { e with lanes := loadLanes n e.bin e.lanes } h
    simp only [laneOf_loadLanes _ _ h] at hl
    rw [if_pos h, ← hl]
    simp [runBatch, batchOutput, h, laneOf]
  · simp [runBatch, batchOutput, h]

theorem roundKeys_forward (ks : Vector Word 32) : (List.finRange 32).map (fun r => ks[id r]) = ks.toList := by
  apply List.ext_getElem <;> simp

theorem roundKeys_backward (ks : Vector Word 32) :
    (List.finRange 32).map (fun r => ks[Fin.rev r]) = ks.reverse.toList := by
  apply List.ext_getElem
  · simp
  · intro i _ _
    simp [Fin.rev]

/-- One round, its state reversed, and the same round again give the block back, reversed. -/
theorem cryptRound_undo (t : Tables) (k : Word) (p : Block) :
    cryptRound t (cryptRound t p k).reverse k = p.reverse := by
  have hr : (cryptRound t p k).reverse = #v[p[0] ^^^ tVec t (p[1] ^^^ p[2] ^^^ p[3] ^^^ k), p[3], p[2], p[1]] := by
    ext j hj
    interval_cases j <;> simp [cryptRound]
  have hp : p.reverse = #v[p[3], p[2], p[1], p[0]] := by
    ext j hj
    interval_cases j <;> simp
  have hx : p[3] ^^^ p[2] ^^^ p[1] ^^^ k = p[1] ^^^ p[2] ^^^ p[3] ^^^ k := by ac_rfl
  rw [hr, hp]
  show #v[p[3], p[2], p[1], (p[0] ^^^ tVec t (p[1] ^^^ p[2] ^^^ p[3] ^^^ k)) ^^^ tVec t (p[3] ^^^ p[2] ^^^ p[1] ^^^ k)] = _
  rw [hx, BitVec.xor_assoc, BitVec.xor_self, BitVec.xor_zero]

end Sys2Proof.Machine
end

