-- ==== Sys2Proof/Laws/Decode.lean ====
section
/-! SUPPORT. The fields of a command word, and the words of the commands, as numbers. -/

namespace Sys2Proof

theorem toNat_append_add {n m : Nat} (x : BitVec n) (y : BitVec m) : (x ++ y).toNat = x.toNat * 2 ^ m + y.toNat := by
  rw [BitVec.toNat_append, ← Nat.shiftLeft_add_eq_or_of_lt y.isLt, Nat.shiftLeft_eq]

theorem opField_toNat (w : Word) : (opField w).toNat = w.toNat % 16 := by
  simp [opField, BitVec.extractLsb'_toNat]

theorem rsv0Field_toNat (w : Word) : (rsv0Field w).toNat = w.toNat / 16 % 16 := by
  simp [rsv0Field, BitVec.extractLsb'_toNat, Nat.shiftRight_eq_div_pow]

theorem lenField_toNat (w : Word) : (lenField w).toNat = w.toNat / 256 % 256 := by
  simp [lenField, BitVec.extractLsb'_toNat, Nat.shiftRight_eq_div_pow]

theorem rsv1Field_toNat (w : Word) : (rsv1Field w).toNat = w.toNat / 65536 := by
  simp [rsv1Field, BitVec.extractLsb'_toNat, Nat.shiftRight_eq_div_pow]
  omega

theorem commandWord_toNat (op : BitVec 4) (len : Byte) : (commandWord op len).toNat = len.toNat * 256 + op.toNat := by
  have h : (commandWord op len).toNat = (0#16 ++ len ++ 0#4 ++ op : BitVec (16 + 8 + 4 + 4)).toNat := rfl
  rw [h]
  simp only [toNat_append_add, BitVec.toNat_ofNat]
  omega

end Sys2Proof
end

