-- ==== Sys2Proof/Laws/State.lean ====
section
/-! SUPPORT. One lemma for each field and each update of the state: what the update leaves in the field. All hold by rfl and are in
the simp set, so that no proof unfolds an update. -/

namespace Sys2Proof.Machine

@[simp] theorem respond_engine (r : BusResponse) (s : State) : (s.respond r).engine = s.engine := rfl
@[simp] theorem respond_engineBase (r : BusResponse) (s : State) : (s.respond r).engineBase = s.engineBase := rfl
@[simp] theorem respond_delay (r : BusResponse) (s : State) : (s.respond r).delay = s.delay := rfl
@[simp] theorem respond_draws (r : BusResponse) (s : State) : (s.respond r).draws = s.draws := rfl
@[simp] theorem respond_inputs (r : BusResponse) (s : State) : (s.respond r).inputs = s.inputs := rfl
@[simp] theorem respond_responses (r : BusResponse) (s : State) : (s.respond r).responses = r :: s.responses := rfl

@[simp] theorem takeInput_engine (rest : List Input) (s : State) : (s.takeInput rest).engine = s.engine := rfl
@[simp] theorem takeInput_engineBase (rest : List Input) (s : State) : (s.takeInput rest).engineBase = s.engineBase := rfl
@[simp] theorem takeInput_delay (rest : List Input) (s : State) : (s.takeInput rest).delay = s.delay - 1 := rfl
@[simp] theorem takeInput_draws (rest : List Input) (s : State) : (s.takeInput rest).draws = s.draws := rfl
@[simp] theorem takeInput_inputs (rest : List Input) (s : State) : (s.takeInput rest).inputs = rest := rfl
@[simp] theorem takeInput_responses (rest : List Input) (s : State) : (s.takeInput rest).responses = s.responses := rfl

@[simp] theorem mapStatus_engine (f : Status → Status) (s : State) : (s.mapStatus f).engine = { s.engine with status := f s.engine.status } := rfl
@[simp] theorem mapStatus_engineBase (f : Status → Status) (s : State) : (s.mapStatus f).engineBase = s.engineBase := rfl
@[simp] theorem mapStatus_delay (f : Status → Status) (s : State) : (s.mapStatus f).delay = s.delay := rfl
@[simp] theorem mapStatus_draws (f : Status → Status) (s : State) : (s.mapStatus f).draws = s.draws := rfl
@[simp] theorem mapStatus_inputs (f : Status → Status) (s : State) : (s.mapStatus f).inputs = s.inputs := rfl
@[simp] theorem mapStatus_responses (f : Status → Status) (s : State) : (s.mapStatus f).responses = s.responses := rfl

@[simp] theorem storeCmd_engine (w : Word) (s : State) : (s.storeCmd w).engine = { s.engine with cmd := w } := rfl
@[simp] theorem storeCmd_engineBase (w : Word) (s : State) : (s.storeCmd w).engineBase = s.engineBase := rfl
@[simp] theorem storeCmd_delay (w : Word) (s : State) : (s.storeCmd w).delay = s.delay := rfl
@[simp] theorem storeCmd_draws (w : Word) (s : State) : (s.storeCmd w).draws = s.draws := rfl
@[simp] theorem storeCmd_inputs (w : Word) (s : State) : (s.storeCmd w).inputs = s.inputs := rfl
@[simp] theorem storeCmd_responses (w : Word) (s : State) : (s.storeCmd w).responses = s.responses := rfl

@[simp] theorem dropWrite_engine (s : State) : (dropWrite s).engine = { s.engine with status := s.engine.status.dropped } := rfl
@[simp] theorem dropWrite_engineBase (s : State) : (dropWrite s).engineBase = s.engineBase := rfl
@[simp] theorem dropWrite_delay (s : State) : (dropWrite s).delay = s.delay := rfl
@[simp] theorem dropWrite_draws (s : State) : (dropWrite s).draws = s.draws := rfl
@[simp] theorem dropWrite_inputs (s : State) : (dropWrite s).inputs = s.inputs := rfl
@[simp] theorem dropWrite_responses (s : State) : (dropWrite s).responses = s.responses := rfl

@[simp] theorem reject_engine (e : ErrorCode) (s : State) : (reject e s).engine = { s.engine with status := Status.rejected e s.engine.status } := rfl
@[simp] theorem reject_engineBase (e : ErrorCode) (s : State) : (reject e s).engineBase = s.engineBase := rfl
@[simp] theorem reject_delay (e : ErrorCode) (s : State) : (reject e s).delay = s.delay := rfl
@[simp] theorem reject_draws (e : ErrorCode) (s : State) : (reject e s).draws = s.draws := rfl
@[simp] theorem reject_inputs (e : ErrorCode) (s : State) : (reject e s).inputs = s.inputs := rfl
@[simp] theorem reject_responses (e : ErrorCode) (s : State) : (reject e s).responses = s.responses := rfl

@[simp] theorem accept_engine (i : Instr) (lat : Nat → Nat) (s : State) : (accept i lat s).engine = { s.engine with status := s.engine.status.accepted, latch := some i } := rfl
@[simp] theorem accept_engineBase (i : Instr) (lat : Nat → Nat) (s : State) : (accept i lat s).engineBase = s.engineBase := rfl
@[simp] theorem accept_delay (i : Instr) (lat : Nat → Nat) (s : State) : (accept i lat s).delay = lat s.draws := rfl
@[simp] theorem accept_draws (i : Instr) (lat : Nat → Nat) (s : State) : (accept i lat s).draws = s.draws + 1 := rfl
@[simp] theorem accept_inputs (i : Instr) (lat : Nat → Nat) (s : State) : (accept i lat s).inputs = s.inputs := rfl
@[simp] theorem accept_responses (i : Instr) (lat : Nat → Nat) (s : State) : (accept i lat s).responses = s.responses := rfl

@[simp] theorem finish_engine (s : State) : (finish s).engine = { s.engine with status := s.engine.status.completed, latch := none } := rfl
@[simp] theorem finish_engineBase (s : State) : (finish s).engineBase = s.engineBase := rfl
@[simp] theorem finish_delay (s : State) : (finish s).delay = s.delay := rfl
@[simp] theorem finish_draws (s : State) : (finish s).draws = s.draws := rfl
@[simp] theorem finish_inputs (s : State) : (finish s).inputs = s.inputs := rfl
@[simp] theorem finish_responses (s : State) : (finish s).responses = s.responses := rfl

@[simp] theorem releaseLanes_engine (s : State) : (releaseLanes s).engine = { s.engine with lanes := freeLanes s.engineBase s.draws, round := Config.freeRound s.engineBase s.draws } := rfl
@[simp] theorem releaseLanes_engineBase (s : State) : (releaseLanes s).engineBase = s.engineBase := rfl
@[simp] theorem releaseLanes_delay (s : State) : (releaseLanes s).delay = s.delay := rfl
@[simp] theorem releaseLanes_draws (s : State) : (releaseLanes s).draws = s.draws + 1 := rfl
@[simp] theorem releaseLanes_inputs (s : State) : (releaseLanes s).inputs = s.inputs := rfl
@[simp] theorem releaseLanes_responses (s : State) : (releaseLanes s).responses = s.responses := rfl

@[simp] theorem resetEngine_engine (s : State) : (resetEngine s).engine = Engine.reset := rfl
@[simp] theorem resetEngine_engineBase (s : State) : (resetEngine s).engineBase = s.engineBase := rfl
@[simp] theorem resetEngine_delay (s : State) : (resetEngine s).delay = s.delay := rfl
@[simp] theorem resetEngine_draws (s : State) : (resetEngine s).draws = s.draws := rfl
@[simp] theorem resetEngine_inputs (s : State) : (resetEngine s).inputs = s.inputs := rfl
@[simp] theorem resetEngine_responses (s : State) : (resetEngine s).responses = s.responses := rfl

@[simp] theorem placeCommand_engine (w : Word) (s : State) : (s.placeCommand w).engine = s.engine := rfl
@[simp] theorem placeCommand_engineBase (w : Word) (s : State) : (s.placeCommand w).engineBase = s.engineBase := rfl
@[simp] theorem placeCommand_delay (w : Word) (s : State) : (s.placeCommand w).delay = s.delay + 1 := rfl
@[simp] theorem placeCommand_draws (w : Word) (s : State) : (s.placeCommand w).draws = s.draws := rfl
@[simp] theorem placeCommand_inputs (w : Word) (s : State) : (s.placeCommand w).inputs = .access ⟨s.engineBase, 32, .write w⟩ :: s.inputs := rfl
@[simp] theorem placeCommand_responses (w : Word) (s : State) : (s.placeCommand w).responses = s.responses := rfl

@[simp] theorem status_accepted_busy (f : Status) : (f.accepted).busy = true := rfl
@[simp] theorem status_accepted_tablesValid (f : Status) : (f.accepted).tablesValid = f.tablesValid := rfl
@[simp] theorem status_accepted_keysValid (f : Status) : (f.accepted).keysValid = f.keysValid := rfl
@[simp] theorem status_accepted_errcode (f : Status) : (f.accepted).errcode = 0 := rfl
@[simp] theorem status_accepted_sticky (f : Status) : (f.accepted).sticky = f.sticky := rfl

@[simp] theorem status_rejected_busy (e : ErrorCode) (f : Status) : (Status.rejected e f).busy = f.busy := rfl
@[simp] theorem status_rejected_tablesValid (e : ErrorCode) (f : Status) : (Status.rejected e f).tablesValid = f.tablesValid := rfl
@[simp] theorem status_rejected_keysValid (e : ErrorCode) (f : Status) : (Status.rejected e f).keysValid = f.keysValid := rfl
@[simp] theorem status_rejected_errcode (e : ErrorCode) (f : Status) : (Status.rejected e f).errcode = e.code := rfl
@[simp] theorem status_rejected_sticky (e : ErrorCode) (f : Status) : (Status.rejected e f).sticky = f.sticky ||| e.stickyBit := rfl

@[simp] theorem status_dropped_busy (f : Status) : (f.dropped).busy = f.busy := rfl
@[simp] theorem status_dropped_tablesValid (f : Status) : (f.dropped).tablesValid = f.tablesValid := rfl
@[simp] theorem status_dropped_keysValid (f : Status) : (f.dropped).keysValid = f.keysValid := rfl
@[simp] theorem status_dropped_errcode (f : Status) : (f.dropped).errcode = f.errcode := rfl
@[simp] theorem status_dropped_sticky (f : Status) : (f.dropped).sticky = f.sticky ||| ErrorCode.busyViolation.stickyBit := rfl

@[simp] theorem status_cleared_busy (v : Word) (f : Status) : (Status.cleared v f).busy = f.busy := rfl
@[simp] theorem status_cleared_tablesValid (v : Word) (f : Status) : (Status.cleared v f).tablesValid = f.tablesValid := rfl
@[simp] theorem status_cleared_keysValid (v : Word) (f : Status) : (Status.cleared v f).keysValid = f.keysValid := rfl
@[simp] theorem status_cleared_errcode (v : Word) (f : Status) : (Status.cleared v f).errcode = f.errcode := rfl
@[simp] theorem status_cleared_sticky (v : Word) (f : Status) : (Status.cleared v f).sticky = f.sticky &&& ~~~(v.extractLsb' 8 6) := rfl

@[simp] theorem status_completed_busy (f : Status) : (f.completed).busy = false := rfl
@[simp] theorem status_completed_tablesValid (f : Status) : (f.completed).tablesValid = f.tablesValid := rfl
@[simp] theorem status_completed_keysValid (f : Status) : (f.completed).keysValid = f.keysValid := rfl
@[simp] theorem status_completed_errcode (f : Status) : (f.completed).errcode = f.errcode := rfl
@[simp] theorem status_completed_sticky (f : Status) : (f.completed).sticky = f.sticky := rfl

@[simp] theorem storeMk_cmd (j : Fin 4) (v : Word) (e : Engine) : (Engine.storeMk j v e).cmd = e.cmd := rfl
@[simp] theorem storeMk_status (j : Fin 4) (v : Word) (e : Engine) : (Engine.storeMk j v e).status = e.status := rfl
@[simp] theorem storeMk_masterKey (j : Fin 4) (v : Word) (e : Engine) : (Engine.storeMk j v e).masterKey = e.masterKey.set j v := rfl
@[simp] theorem storeMk_rk (j : Fin 4) (v : Word) (e : Engine) : (Engine.storeMk j v e).rk = e.rk := rfl
@[simp] theorem storeMk_bin (j : Fin 4) (v : Word) (e : Engine) : (Engine.storeMk j v e).bin = e.bin := rfl
@[simp] theorem storeMk_bout (j : Fin 4) (v : Word) (e : Engine) : (Engine.storeMk j v e).bout = e.bout := rfl
@[simp] theorem storeMk_tables (j : Fin 4) (v : Word) (e : Engine) : (Engine.storeMk j v e).tables = e.tables := rfl
@[simp] theorem storeMk_latch (j : Fin 4) (v : Word) (e : Engine) : (Engine.storeMk j v e).latch = e.latch := rfl
@[simp] theorem storeMk_lanes (j : Fin 4) (v : Word) (e : Engine) : (Engine.storeMk j v e).lanes = e.lanes := rfl
@[simp] theorem storeMk_round (j : Fin 4) (v : Word) (e : Engine) : (Engine.storeMk j v e).round = e.round := rfl

@[simp] theorem storeBin_cmd (b : Fin 8) (j : Fin 4) (v : Word) (e : Engine) : (Engine.storeBin b j v e).cmd = e.cmd := rfl
@[simp] theorem storeBin_status (b : Fin 8) (j : Fin 4) (v : Word) (e : Engine) : (Engine.storeBin b j v e).status = e.status := rfl
@[simp] theorem storeBin_masterKey (b : Fin 8) (j : Fin 4) (v : Word) (e : Engine) : (Engine.storeBin b j v e).masterKey = e.masterKey := rfl
@[simp] theorem storeBin_rk (b : Fin 8) (j : Fin 4) (v : Word) (e : Engine) : (Engine.storeBin b j v e).rk = e.rk := rfl
@[simp] theorem storeBin_bin (b : Fin 8) (j : Fin 4) (v : Word) (e : Engine) : (Engine.storeBin b j v e).bin = e.bin.set b (e.bin[b].set j v) := rfl
@[simp] theorem storeBin_bout (b : Fin 8) (j : Fin 4) (v : Word) (e : Engine) : (Engine.storeBin b j v e).bout = e.bout := rfl
@[simp] theorem storeBin_tables (b : Fin 8) (j : Fin 4) (v : Word) (e : Engine) : (Engine.storeBin b j v e).tables = e.tables := rfl
@[simp] theorem storeBin_latch (b : Fin 8) (j : Fin 4) (v : Word) (e : Engine) : (Engine.storeBin b j v e).latch = e.latch := rfl
@[simp] theorem storeBin_lanes (b : Fin 8) (j : Fin 4) (v : Word) (e : Engine) : (Engine.storeBin b j v e).lanes = e.lanes := rfl
@[simp] theorem storeBin_round (b : Fin 8) (j : Fin 4) (v : Word) (e : Engine) : (Engine.storeBin b j v e).round = e.round := rfl

end Sys2Proof.Machine
end

