-- ==== Sys2Proof/Laws/Ops.lean ====
section
/-! SUPPORT. One lemma for each shared operation, saying everything it can do: issue, the meanings through `exec`, completion, a host
access, a step. -/

namespace Sys2Proof.Machine

/-! ### Issue -/

theorem issue_of_busy {w err acc} {s : State} (h : s.engine.status.busy = true) : issue w err acc s = dropWrite s := by
  simp [issue, h]

theorem issue_of_error {w acc} {s : State} {e : ErrorCode} (h : s.engine.status.busy = false) :
    issue w (some e) acc s = reject e (s.storeCmd w) := by simp [issue, h]

theorem issue_of_ok {w acc} {s : State} (h : s.engine.status.busy = false) : issue w none acc s = acc (s.storeCmd w) := by
  simp [issue, h]

/-- The checks of R204 after decoding, for each command. -/
def commandError (i : Instr) (f : Status) : Option ErrorCode :=
  match i with
  | .gentab => none
  | .derive len => deriveError len f
  | .encb len => batchError len f
  | .decb len => batchError len f

/-- The latency a command draws at its acceptance. -/
def commandLatency (i : Instr) (s : State) : Nat → Nat :=
  match i with
  | .gentab => s.latency Config.latGentab
  | .derive _ => s.latency Config.latDerive
  | .encb len => s.latency (Config.latCipher (.encb len))
  | .decb len => s.latency (Config.latCipher (.decb len))

/-- Every command is one issue of its word. -/
theorem exec_eq_issue (i : Instr) (s : State) :
    exec i s =
      .next (issue (encode i) (commandError i s.engine.status) (accept i (commandLatency i s)) s) := by
  cases i <;> rfl

/-- The three ends of an issue. -/
theorem exec_cases {i : Instr} {s t : State} (h : exec i s = .next t) :
    (s.engine.status.busy = true ∧ t = dropWrite s) ∨
    (s.engine.status.busy = false ∧ ∃ e, commandError i s.engine.status = some e ∧ t = reject e (s.storeCmd (encode i))) ∨
    (s.engine.status.busy = false ∧ commandError i s.engine.status = none ∧
      t = accept i (commandLatency i s) (s.storeCmd (encode i))) := by
  rw [exec_eq_issue] at h
  injection h with h
  cases hb : s.engine.status.busy with
  | true => exact .inl ⟨rfl, by rw [← h, issue_of_busy hb]⟩
  | false =>
    cases he : commandError i s.engine.status with
    | some e => exact .inr (.inl ⟨rfl, e, rfl, by rw [← h, he, issue_of_error hb]⟩)
    | none => exact .inr (.inr ⟨rfl, rfl, by rw [← h, he, issue_of_ok hb]⟩)

theorem exec_goes_on (i : Instr) (s : State) : ∃ t, exec i s = .next t := ⟨_, exec_eq_issue i s⟩

/-- What issuing any word does: a decoded command, or the rejection of an illegal word. -/
theorem issueWord_cases {w : Word} {s t : State} (h : issueWord w s = .next t) :
    (∃ i, decode w = .ok i ∧ exec i s = .next t) ∨
    (∃ err, decode w = .error err ∧ s.engine.status.busy = true ∧ t = dropWrite s) ∨
    (∃ err, decode w = .error err ∧ s.engine.status.busy = false ∧ t = reject .illegalCommand (s.storeCmd w)) := by
  unfold issueWord at h
  split at h
  · next i hi => exact .inl ⟨i, hi, h⟩
  · next err herr =>
    injection h with h
    unfold issueIllegal at h
    cases hb : s.engine.status.busy with
    | true => exact .inr (.inl ⟨err, herr, rfl, by rw [← h, issue_of_busy hb]⟩)
    | false => exact .inr (.inr ⟨err, herr, rfl, by rw [← h, issue_of_error hb]⟩)

theorem issueWord_goes_on (w : Word) (s : State) : ∃ t, issueWord w s = .next t := by
  unfold issueWord
  split
  · exact exec_goes_on _ _
  · exact ⟨_, rfl⟩

/-! ### Completion -/

/-- Completion, by the latched command. -/
theorem complete_cases {s t : State} (h : complete s = .next t) :
    (s.engine.latch = some .gentab ∧ t = completeGentab s) ∨
    (∃ len, s.engine.latch = some (.derive len) ∧ t = completeDerive s) ∨
    (∃ len, s.engine.latch = some (.encb len) ∧ t = completeEncb len s) ∨
    (∃ len, s.engine.latch = some (.decb len) ∧ t = completeDecb len s) := by
  unfold complete at h
  split at h
  · cases h
  · next hl => injection h with h; exact .inl ⟨hl, h.symm⟩
  · next hl => injection h with h; exact .inr (.inl ⟨_, hl, h.symm⟩)
  · next hl => injection h with h; exact .inr (.inr (.inl ⟨_, hl, h.symm⟩))
  · next hl => injection h with h; exact .inr (.inr (.inr ⟨_, hl, h.symm⟩))

theorem complete_goes_on {s : State} {i : Instr} (h : s.engine.latch = some i) : ∃ t, complete s = .next t := by
  unfold complete
  rw [h]
  cases i <;> exact ⟨_, rfl⟩

/-- The rounds touch the lanes and the round counter only. -/
theorem foldl_batchRound_frame (n : Nat) (order : Fin 32 → Fin 32) (rs : List (Fin 32)) (e : Engine) :
    rs.foldl (batchRound n order) e =
      { e with
        lanes := (rs.foldl (batchRound n order) e).lanes
        round := (rs.foldl (batchRound n order) e).round } := by
  induction rs generalizing e with
  | nil => rfl
  | cons r rs ih => rw [List.foldl_cons, ih]; rfl

/-- The datapath changes BOUT, the lanes and the round counter only. -/
theorem runBatch_frame (n : Nat) (order : Fin 32 → Fin 32) (e : Engine) :
    runBatch n order e =
      { e with
        bout := (runBatch n order e).bout
        lanes := (runBatch n order e).lanes
        round := (runBatch n order e).round } := by
  unfold runBatch
  dsimp only
  rw [foldl_batchRound_frame]

/-- Everything a batch command's completion leaves. -/
theorem completeBatch_eq (len : Byte) (order : Fin 32 → Fin 32) (s : State) :
    completeBatch len order s =
      { s with
        engine := { s.engine with
          status := s.engine.status.completed
          latch := none
          bout := (runBatch (blockCount len) order s.engine).bout
          lanes := freeLanes s.engineBase s.draws
          round := Config.freeRound s.engineBase s.draws }
        draws := s.draws + 1 } := by
  unfold completeBatch finish releaseLanes
  rw [runBatch_frame]

/-! ### Host accesses -/

theorem windowOffset_base (base off : Nat) (h : off < 0x2000) : windowOffset base (base + off) = some off := by
  simp [windowOffset, Config.windowSize, h]

theorem windowOffset_eq_some {base addr off : Nat} (h : windowOffset base addr = some off) :
    addr = base + off ∧ off < 0x2000 := by
  unfold windowOffset Config.windowSize at h
  split at h
  · injection h with h; omega
  · cases h

theorem admit_eq_some {off width : Nat} {k : AccessKind} {r : Reg} (h : admittedReg off width k = some r) :
    width = 32 ∧ off % 4 = 0 ∧ regAt off = some r ∧ k.permitted r = true := by
  unfold admittedReg at h
  split at h
  · next hc =>
    cases hr : regAt off with
    | none => simp [hr] at h
    | some r' =>
      simp only [hr, Option.filter_some, Option.ite_none_right_eq_some, Option.some.injEq] at h
      obtain ⟨hp, rfl⟩ := h
      exact ⟨hc.1, hc.2, rfl, hp⟩
  · cases h

/-- An admitted access, once its register is known. -/
theorem hostAccess_admitted {s : State} {off : Nat} {k : AccessKind} {r : Reg} (ho : off < 0x2000)
    (ha : admittedReg off 32 k = some r) :
    hostAccess ⟨s.engineBase + off, 32, k⟩ s =
      match k with
      | .read => .next (readAccess r s)
      | .write v => answered .done (writeAccess r v s) := by
  unfold hostAccess
  simp only [windowOffset_base _ _ ho, ha]
  cases k <;> rfl

/-- The ends of a host access: not decoded, BusError, a read, a write. -/
theorem hostAccess_cases {a : HostAccess} {s t : State} (h : hostAccess a s = .next t) :
    (windowOffset s.engineBase a.addr = none ∧ t = s.respond .notDecoded) ∨
    (∃ off, windowOffset s.engineBase a.addr = some off ∧ admittedReg off a.width a.kind = none ∧ t = s.respond .busError) ∨
    (∃ off r, windowOffset s.engineBase a.addr = some off ∧ admittedReg off a.width a.kind = some r ∧ a.kind = .read ∧
      t = readAccess r s) ∨
    (∃ off r v s', windowOffset s.engineBase a.addr = some off ∧ admittedReg off a.width a.kind = some r ∧ a.kind = .write v ∧
      writeAccess r v s = .next s' ∧ t = s'.respond .done) := by
  unfold hostAccess at h
  split at h
  · next hw => injection h with h; exact .inl ⟨hw, h.symm⟩
  · next off hw =>
    split at h
    · next ha => injection h with h; exact .inr (.inl ⟨off, hw, ha, h.symm⟩)
    · next r ha =>
      split at h
      · next hk => injection h with h; exact .inr (.inr (.inl ⟨off, r, hw, ha, hk, h.symm⟩))
      · next v hk =>
        unfold answered at h
        split at h
        · next s' hs => injection h with h; exact .inr (.inr (.inr ⟨off, r, v, s', hw, ha, hk, hs, h.symm⟩))
        · cases h
        · cases h

theorem writeAccess_goes_on (r : Reg) (v : Word) (s : State) : ∃ t, writeAccess r v s = .next t := by
  cases r <;> first | exact issueWord_goes_on v s | exact ⟨_, rfl⟩

theorem hostAccess_goes_on (a : HostAccess) (s : State) : ∃ t, hostAccess a s = .next t := by
  unfold hostAccess
  split
  · exact ⟨_, rfl⟩
  · split
    · exact ⟨_, rfl⟩
    · split
      · exact ⟨_, rfl⟩
      · next r _ _ v _ =>
        obtain ⟨t, ht⟩ := writeAccess_goes_on r v s
        exact ⟨t.respond .done, by rw [ht]; rfl⟩

@[simp] theorem readAccess_engine (r : Reg) (s : State) : (readAccess r s).engine = s.engine := by
  unfold readAccess; split <;> rfl

@[simp] theorem readAccess_engineBase (r : Reg) (s : State) : (readAccess r s).engineBase = s.engineBase := by
  unfold readAccess; split <;> rfl

@[simp] theorem readAccess_delay (r : Reg) (s : State) : (readAccess r s).delay = s.delay := by
  unfold readAccess; split <;> rfl

@[simp] theorem readAccess_inputs (r : Reg) (s : State) : (readAccess r s).inputs = s.inputs := by
  unfold readAccess; split <;> rfl

theorem readAccess_specified {r : Reg} {s : State} (h : s.engine.unspecified r = false) :
    readAccess r s = s.respond (.data (s.engine.readReg r)) := by simp [readAccess, h]

theorem readAccess_unspecified {r : Reg} {s : State} (h : s.engine.unspecified r = true) :
    readAccess r s = { s.respond (.data (Config.freeWord s.engineBase s.draws)) with draws := s.draws + 1 } := by
  simp [readAccess, h]

theorem guardedStore_cases (f : Engine → Engine) (s : State) :
    (s.engine.status.busy = true ∧ guardedStore f s = dropWrite s) ∨
    (s.engine.status.busy = false ∧ guardedStore f s = { s with engine := f s.engine }) := by
  unfold guardedStore
  cases s.engine.status.busy <;> simp

@[simp] theorem pollStatus_engine (s : State) : (pollStatus s).engine = s.engine := by
  unfold pollStatus; dsimp only; split <;> simp

@[simp] theorem pollStatus_engineBase (s : State) : (pollStatus s).engineBase = s.engineBase := by
  unfold pollStatus; dsimp only; split <;> simp

@[simp] theorem pollStatus_delay (s : State) : (pollStatus s).delay = s.delay := by
  unfold pollStatus; dsimp only; split <;> simp

/-! ### Steps -/

theorem turn_completion_busy {s : State} (h : s.turn = .completion) : s.engine.status.busy = true := by
  unfold State.turn at h
  split at h
  · split at h
    · assumption
    · cases h
  · split at h
    · next hc => exact (Bool.and_eq_true _ _ |>.mp hc).1
    · cases h

theorem turn_outside {s : State} {i : Input} {rest : List Input} (h : s.turn = .outside i rest) :
    s.inputs = i :: rest ∧ (s.engine.status.busy = true → s.delay ≠ 0) := by
  unfold State.turn at h
  split at h
  · split at h <;> cases h
  · next hs =>
    split at h
    · cases h
    · next hc =>
      injection h with h1 h2
      subst h1 h2
      refine ⟨hs, fun hb hd => hc ?_⟩
      simp [hb, hd]

theorem turn_idle {s : State} (h : s.turn = .idle) : s.inputs = [] ∧ s.engine.status.busy = false := by
  unfold State.turn at h
  split at h
  · next hs =>
    split at h
    · cases h
    · next hb => exact ⟨hs, by simpa using hb⟩
  · split at h <;> cases h

/-- Everything a step can be. -/
theorem step_cases {s t : State} (h : step s = .next t) :
    (s.turn = .completion ∧ s.engine.status.busy = true ∧ complete s = .next t) ∨
    (∃ a rest, s.turn = .outside (.access a) rest ∧ hostAccess a (s.takeInput rest) = .next t) ∨
    (∃ rest, s.turn = .outside .poll rest ∧ t = pollStatus (s.takeInput rest)) ∨
    (∃ rest, s.turn = .outside .reset rest ∧ t = resetEngine (s.takeInput rest)) ∨
    (s.turn = .idle ∧ t = s) := by
  unfold step nextEvent at h
  split at h
  · next ht => exact .inl ⟨ht, turn_completion_busy ht, h⟩
  · next i rest ht =>
    cases i with
    | access a => exact .inr (.inl ⟨a, rest, ht, h⟩)
    | poll => injection h with h; exact .inr (.inr (.inl ⟨rest, ht, h.symm⟩))
    | reset => injection h with h; exact .inr (.inr (.inr (.inl ⟨rest, ht, h.symm⟩)))
  · next ht => injection h with h; exact .inr (.inr (.inr (.inr ⟨ht, h.symm⟩)))

/-! ### What a step does to the engine -/

/-- Where the next event is an admitted write of v to the register r. -/
def State.writes (s : State) (r : Reg) (v : Word) : Prop :=
  ∃ rest, s.turn = .outside (.access ⟨s.engineBase + r.offset, 32, .write v⟩) rest

/-- Everything a step can do to the engine, with the event that does it. -/
inductive EngineStep (s : State) : Engine → Prop where
  | same : EngineStep s s.engine
  | dropped : s.engine.status.busy = true → EngineStep s { s.engine with status := s.engine.status.dropped }
  | cleared (v : Word) : s.writes .status v → EngineStep s { s.engine with status := Status.cleared v s.engine.status }
  | storedMk (j : Fin 4) (v : Word) : s.engine.status.busy = false → s.writes (.mk j) v →
      EngineStep s (Engine.storeMk j v s.engine)
  | storedBin (b : Fin 8) (j : Fin 4) (v : Word) : s.engine.status.busy = false → s.writes (.bin b j) v →
      EngineStep s (Engine.storeBin b j v s.engine)
  | illegal (w : Word) (err : DecodeError) : s.engine.status.busy = false → s.writes .cmd w → decode w = .error err →
      EngineStep s { s.engine with cmd := w, status := Status.rejected .illegalCommand s.engine.status }
  | rejected (w : Word) (i : Instr) (e : ErrorCode) : s.engine.status.busy = false → s.writes .cmd w → decode w = .ok i →
      commandError i s.engine.status = some e →
      EngineStep s { s.engine with cmd := encode i, status := Status.rejected e s.engine.status }
  | accepted (w : Word) (i : Instr) : s.engine.status.busy = false → s.writes .cmd w → decode w = .ok i →
      commandError i s.engine.status = none →
      EngineStep s { s.engine with cmd := encode i, status := s.engine.status.accepted, latch := some i }
  | completed (t : State) : s.turn = .completion → s.engine.status.busy = true → complete s = .next t →
      EngineStep s t.engine
  | reset (rest : List Input) : s.turn = .outside .reset rest → EngineStep s Engine.reset

theorem ite_eq_cases {α : Type} {c : Prop} [Decidable c] {x y z : α} (h : (if c then x else y) = z) :
    (c ∧ x = z) ∨ (¬ c ∧ y = z) := by
  by_cases hc : c
  · exact .inl ⟨hc, by rwa [if_pos hc] at h⟩
  · exact .inr ⟨hc, by rwa [if_neg hc] at h⟩

/-- An aligned offset that names a register is its offset in the map. -/
theorem regAt_offset {off : Nat} {r : Reg} (h4 : off % 4 = 0) (h : regAt off = some r) : off = r.offset := by
  unfold regAt at h
  iterate 15
    rcases ite_eq_cases h with ⟨hc, h⟩ | ⟨hc, h⟩
    · first
      | cases h
        done
      | injection h with h
        subst h
        simp only [Reg.offset, Fin.val_ofNat]
        omega
  cases h

theorem step_engine {s t : State} (h : step s = .next t) : EngineStep s t.engine := by
  rcases step_cases h with ⟨ht, hb, hc⟩ | ⟨a, rest, ht, ha⟩ | ⟨rest, ht, rfl⟩ | ⟨rest, ht, rfl⟩ | ⟨ht, rfl⟩
  · exact .completed t ht hb hc
  · rcases hostAccess_cases ha with ⟨_, rfl⟩ | ⟨off, _, _, rfl⟩ | ⟨off, r, _, _, _, rfl⟩ | ⟨off, r, v, s', hw, had, hk, hs, rfl⟩
    · exact .same
    · exact .same
    · rw [readAccess_engine]; exact .same
    · obtain ⟨hw32, h4, hr, _⟩ := admit_eq_some had
      obtain ⟨haddr, _⟩ := windowOffset_eq_some hw
      have hoff := regAt_offset h4 hr
      have hwr : s.writes r v := by
        refine ⟨rest, ?_⟩
        rw [ht]
        cases a
        simp only [takeInput_engineBase] at haddr hw32 hk
        subst haddr hw32 hk hoff
        rfl
      cases r with
      | cmd =>
        rcases issueWord_cases hs with ⟨i, hi, he⟩ | ⟨err, herr, hb, rfl⟩ | ⟨err, herr, hb, rfl⟩
        · rcases exec_cases he with ⟨hb, rfl⟩ | ⟨hb, e, hce, rfl⟩ | ⟨hb, hce, rfl⟩
          · exact .dropped hb
          · exact .rejected v i e hb hwr hi hce
          · exact .accepted v i hb hwr hi hce
        · exact .dropped hb
        · exact .illegal v err hb hwr herr
      | status => injection hs with hs; subst hs; exact .cleared v hwr
      | mk j =>
        injection hs with hs
        subst hs
        rcases guardedStore_cases (Engine.storeMk j v) (s.takeInput rest) with ⟨hb, he⟩ | ⟨hb, he⟩
        · rw [he]; exact .dropped hb
        · rw [he]; exact .storedMk j v hb hwr
      | bin b j =>
        injection hs with hs
        subst hs
        rcases guardedStore_cases (Engine.storeBin b j v) (s.takeInput rest) with ⟨hb, he⟩ | ⟨hb, he⟩
        · rw [he]; exact .dropped hb
        · rw [he]; exact .storedBin b j v hb hwr
      | _ => injection hs with hs; subst hs; exact .same
  · rw [pollStatus_engine]; exact .same
  · exact .reset rest ht
  · exact .same

end Sys2Proof.Machine
end

