-- ==== Sys2Proof/Laws/Steps.lean ====
section
/-! SUPPORT. What acceptance requires, what completion changes, what no step changes, and the last step of a run. -/

namespace Sys2Proof.Machine

/-! ### Issue -/

theorem exec_of_error {i : Instr} {s : State} {e : ErrorCode} (hb : s.engine.status.busy = false)
    (he : commandError i s.engine.status = some e) : exec i s = .next (reject e (s.storeCmd (encode i))) := by
  rw [exec_eq_issue, he, issue_of_error hb]

theorem exec_of_ok {i : Instr} {s : State} (hb : s.engine.status.busy = false) (he : commandError i s.engine.status = none) :
    exec i s = .next (accept i (commandLatency i s) (s.storeCmd (encode i))) := by
  rw [exec_eq_issue, he, issue_of_ok hb]

theorem batchLengthOk_iff (len : Byte) :
    batchLengthOk len = true ↔ len.toNat % 16 = 0 ∧ 16 ≤ len.toNat ∧ len.toNat ≤ 128 := by
  unfold batchLengthOk
  simp
  omega

theorem wellFormed_batch (len : Byte) : batchLengths.contains len = batchLengthOk len := by
  revert len
  decide +kernel

/-- What a command that passes the checks has met. -/
theorem commandError_eq_none {i : Instr} {f : Status} (h : commandError i f = none) :
    i.wellFormed = true ∧ (i ≠ .gentab → f.tablesValid = true) ∧
      ∀ len, i = .encb len ∨ i = .decb len → f.keysValid = true := by
  cases i with
  | gentab => exact ⟨rfl, fun h => absurd rfl h, by simp⟩
  | derive len =>
    simp only [commandError, deriveError] at h
    split_ifs at h with h1 h2
    simp [keyLengthOk] at h1 h2
    exact ⟨by simp [Instr.wellFormed, h2], fun _ => h1, by simp⟩
  | encb len =>
    simp only [commandError, batchError] at h
    split_ifs at h with h1 h2 h3
    simp at h1 h2 h3
    exact ⟨by rw [Instr.wellFormed, wellFormed_batch, h2], fun _ => h1, fun _ _ => h3⟩
  | decb len =>
    simp only [commandError, batchError] at h
    split_ifs at h with h1 h2 h3
    simp at h1 h2 h3
    exact ⟨by rw [Instr.wellFormed, wellFormed_batch, h2], fun _ => h1, fun _ _ => h3⟩

theorem commandError_code_le {i : Instr} {f : Status} {e : ErrorCode} (h : commandError i f = some e) :
    e.code.toNat ≤ 5 := by
  cases i <;> simp only [commandError, deriveError, batchError, reduceCtorEq] at h <;>
    split_ifs at h <;> injection h with h <;> subst h <;> decide

/-! ### Completion -/

theorem complete_busy {s t : State} (h : complete s = .next t) : t.engine.status.busy = false := by
  rcases complete_cases h with ⟨_, rfl⟩ | ⟨_, _, rfl⟩ | ⟨_, _, rfl⟩ | ⟨_, _, rfl⟩
  · rfl
  · rfl
  · rw [completeEncb, completeBatch_eq]; rfl
  · rw [completeDecb, completeBatch_eq]; rfl

/-- What every completion leaves alone, and that it empties the latch. -/
theorem complete_frame {s t : State} (h : complete s = .next t) :
    t.engine.status.errcode = s.engine.status.errcode ∧ t.engine.status.sticky = s.engine.status.sticky ∧
      t.engine.cmd = s.engine.cmd ∧ t.engine.masterKey = s.engine.masterKey ∧ t.engine.bin = s.engine.bin ∧
      t.engine.latch = none ∧ t.engineBase = s.engineBase := by
  rcases complete_cases h with ⟨_, rfl⟩ | ⟨_, _, rfl⟩ | ⟨_, _, rfl⟩ | ⟨_, _, rfl⟩
  · exact ⟨rfl, rfl, rfl, rfl, rfl, rfl, rfl⟩
  · exact ⟨rfl, rfl, rfl, rfl, rfl, rfl, rfl⟩
  · rw [completeEncb, completeBatch_eq]; exact ⟨rfl, rfl, rfl, rfl, rfl, rfl, rfl⟩
  · rw [completeDecb, completeBatch_eq]; exact ⟨rfl, rfl, rfl, rfl, rfl, rfl, rfl⟩

/-- The tables, the round keys and BOUT after a completion: as before, or as the latched command leaves them. -/
theorem complete_results {s t : State} (h : complete s = .next t) :
    (t.engine.status.tablesValid = s.engine.status.tablesValid ∧ t.engine.tables = s.engine.tables ∨
      s.engine.latch = some .gentab ∧ t.engine.status.tablesValid = true ∧ t.engine.tables = gentabTables) ∧
    (t.engine.status.keysValid = s.engine.status.keysValid ∧ t.engine.rk = s.engine.rk ∨
      (∃ len, s.engine.latch = some (.derive len)) ∧ t.engine.status.keysValid = true ∧
        t.engine.rk = keySchedule s.engine.masterKey) ∧
    (t.engine.bout = s.engine.bout ∨ ∃ len, s.engine.latch = some (.encb len) ∨ s.engine.latch = some (.decb len)) := by
  rcases complete_cases h with ⟨hl, rfl⟩ | ⟨l, hl, rfl⟩ | ⟨l, hl, rfl⟩ | ⟨l, hl, rfl⟩
  · exact ⟨.inr ⟨hl, rfl, rfl⟩, .inl ⟨rfl, rfl⟩, .inl rfl⟩
  · exact ⟨.inl ⟨rfl, rfl⟩, .inr ⟨⟨l, hl⟩, rfl, rfl⟩, .inl rfl⟩
  · rw [completeEncb, completeBatch_eq]; exact ⟨.inl ⟨rfl, rfl⟩, .inl ⟨rfl, rfl⟩, .inr ⟨l, .inl hl⟩⟩
  · rw [completeDecb, completeBatch_eq]; exact ⟨.inl ⟨rfl, rfl⟩, .inl ⟨rfl, rfl⟩, .inr ⟨l, .inr hl⟩⟩

/-! ### Accesses and steps -/

/-- A write to the window, whatever it does to the engine, leaves the base and, while a command runs, the delay; it answers nothing
itself. -/
theorem writeAccess_frame {r : Reg} {v : Word} {s t : State} (h : writeAccess r v s = .next t) :
    t.engineBase = s.engineBase ∧ t.responses = s.responses ∧ (s.engine.status.busy = true → t.delay = s.delay) := by
  cases r with
  | cmd =>
    rcases issueWord_cases h with ⟨i, _, he⟩ | ⟨_, _, _, rfl⟩ | ⟨_, _, _, rfl⟩
    · rcases exec_cases he with ⟨_, rfl⟩ | ⟨_, _, _, rfl⟩ | ⟨hb, _, rfl⟩
      · exact ⟨rfl, rfl, fun _ => rfl⟩
      · exact ⟨rfl, rfl, fun _ => rfl⟩
      · exact ⟨rfl, rfl, fun hb' => by simp [hb] at hb'⟩
    · exact ⟨rfl, rfl, fun _ => rfl⟩
    · exact ⟨rfl, rfl, fun _ => rfl⟩
  | mk j =>
    injection h with h
    subst h
    rcases guardedStore_cases (Engine.storeMk j v) s with ⟨_, h⟩ | ⟨_, h⟩ <;> rw [h] <;> exact ⟨rfl, rfl, fun _ => rfl⟩
  | bin b j =>
    injection h with h
    subst h
    rcases guardedStore_cases (Engine.storeBin b j v) s with ⟨_, h⟩ | ⟨_, h⟩ <;> rw [h] <;> exact ⟨rfl, rfl, fun _ => rfl⟩
  | _ => injection h with h; subst h; exact ⟨rfl, rfl, fun _ => rfl⟩

theorem hostAccess_frame {a : HostAccess} {s t : State} (h : hostAccess a s = .next t) :
    t.engineBase = s.engineBase ∧ (s.engine.status.busy = true → t.delay = s.delay) := by
  rcases hostAccess_cases h with ⟨_, rfl⟩ | ⟨_, _, _, rfl⟩ | ⟨_, _, _, _, _, rfl⟩ | ⟨_, _, _, s', _, _, _, hs, rfl⟩
  · exact ⟨rfl, fun _ => rfl⟩
  · exact ⟨rfl, fun _ => rfl⟩
  · exact ⟨by simp, fun _ => by simp⟩
  · obtain ⟨h1, _, h3⟩ := writeAccess_frame hs
    exact ⟨h1, h3⟩

theorem step_engineBase {s t : State} (h : step s = .next t) : t.engineBase = s.engineBase := by
  rcases step_cases h with ⟨_, _, hc⟩ | ⟨a, rest, _, ha⟩ | ⟨rest, _, rfl⟩ | ⟨rest, _, rfl⟩ | ⟨_, rfl⟩
  · exact (complete_frame hc).2.2.2.2.2.2
  · exact (hostAccess_frame ha).1
  · simp
  · rfl
  · rfl

theorem step_goes_on {s : State} (h : s.engine.status.busy = true → s.engine.latch.isSome = true) :
    ∃ t, step s = .next t := by
  unfold step nextEvent
  split
  · next ht =>
    obtain ⟨i, hi⟩ := Option.isSome_iff_exists.mp (h (turn_completion_busy ht))
    exact complete_goes_on hi
  · next i rest _ =>
    cases i with
    | access a => exact hostAccess_goes_on _ _
    | poll => exact ⟨_, rfl⟩
    | reset => exact ⟨_, rfl⟩
  · exact ⟨_, rfl⟩

/-- A run of n + 1 steps is a run of n steps and one more. -/
theorem runSteps_succ_last (n : Nat) (s u : State) (h : runSteps n s = .next u) : runSteps (n + 1) s = step u := by
  induction n generalizing s with
  | zero =>
    injection h with h
    subst h
    rw [runSteps]
    cases step s <;> rfl
  | succ n ih =>
    rw [runSteps] at h ⊢
    cases hs : step s with
    | next s' => simp only [hs] at h; exact ih s' h
    | fault => simp only [hs] at h; cases h
    | refused => simp only [hs] at h; cases h

end Sys2Proof.Machine
end

