-- ==== Sys2Proof/Laws/Driver.lean ====
section
/-! SUPPORT. What the host's operations and the driver's procedure do, from one access up to the blocks of a whole job. -/

open Sys2Proof.Machine.Partitioner

namespace Sys2Proof.Machine

/-! ### Runs and their responses -/

/-- A run leads from s to t, is answered by rs (oldest first), and leaves the base, the tables, the round keys and the valid flags. -/
structure Served (s t : State) (rs : List BusResponse) : Prop where
  run : ∃ n, runSteps n s = .next t
  responses : t.responses = rs.reverse ++ s.responses
  engineBase : t.engineBase = s.engineBase
  tables : t.engine.tables = s.engine.tables
  rk : t.engine.rk = s.engine.rk
  tablesValid : t.engine.status.tablesValid = s.engine.status.tablesValid
  keysValid : t.engine.status.keysValid = s.engine.status.keysValid

theorem runSteps_add {m n : Nat} {s t u : State} (h : runSteps m s = .next t) (h' : runSteps n t = .next u) :
    runSteps (m + n) s = .next u := by
  induction m generalizing s with
  | zero => injection h with h; subst h; rwa [Nat.zero_add]
  | succ m ih =>
    rw [Nat.succ_add]
    rw [runSteps] at h ⊢
    cases hs : step s with
    | next s' => simp only [hs] at h; exact ih h
    | fault => simp only [hs] at h; cases h
    | refused => simp only [hs] at h; cases h

theorem Served.refl (s : State) : Served s s [] := ⟨⟨0, rfl⟩, rfl, rfl, rfl, rfl, rfl, rfl⟩

theorem Served.trans {s t u : State} {rs rs' : List BusResponse} (h : Served s t rs) (h' : Served t u rs') :
    Served s u (rs ++ rs') := by
  obtain ⟨m, hm⟩ := h.run
  obtain ⟨n, hn⟩ := h'.run
  exact ⟨⟨m + n, runSteps_add hm hn⟩, by rw [h'.responses, h.responses]; simp, h'.engineBase.trans h.engineBase,
    h'.tables.trans h.tables, h'.rk.trans h.rk, h'.tablesValid.trans h.tablesValid, h'.keysValid.trans h.keysValid⟩

theorem Served.of_step {s t : State} {rs : List BusResponse} (h : step s = .next t) (hr : t.responses = rs.reverse ++ s.responses)
    (hb : t.engineBase = s.engineBase) (ht : t.engine.tables = s.engine.tables) (hk : t.engine.rk = s.engine.rk)
    (htv : t.engine.status.tablesValid = s.engine.status.tablesValid)
    (hkv : t.engine.status.keysValid = s.engine.status.keysValid) : Served s t rs :=
  ⟨⟨1, by rw [runSteps, h]; rfl⟩, hr, hb, ht, hk, htv, hkv⟩

/-! ### One access of an idle engine -/

/-- An idle engine takes the host's next access at once. -/
theorem step_access {s : State} {off : Nat} {k : AccessKind} {rest : List Input} (hb : s.engine.status.busy = false)
    (hi : s.inputs = .access ⟨s.engineBase + off, 32, k⟩ :: rest) :
    step s = hostAccess ⟨(s.takeInput rest).engineBase + off, 32, k⟩ (s.takeInput rest) := by
  have ht : s.turn = .outside (.access ⟨s.engineBase + off, 32, k⟩) rest := by simp [State.turn, hi, hb]
  unfold step nextEvent
  simp only [ht, hostTurn, takeInput_engineBase]

theorem admitted_bin (b : Fin 8) (j : Fin 4) (v : Word) : admittedReg (0x0100 + 16 * b.val + 4 * j.val) 32 (.write v) = some (.bin b j) := by
  fin_cases b <;> fin_cases j <;> rfl

theorem admitted_bout (b : Fin 8) (j : Fin 4) : admittedReg (0x0180 + 16 * b.val + 4 * j.val) 32 .read = some (.bout b j) := by
  fin_cases b <;> fin_cases j <;> rfl

theorem step_storeBin {s : State} {b : Fin 8} {j : Fin 4} {v : Word} {rest : List Input} (hb : s.engine.status.busy = false)
    (hi : s.inputs = hostWr s.engineBase (0x0100 + 16 * b.val + 4 * j.val) v :: rest) :
    step s =
      .next { s with
        engine := Engine.storeBin b j v s.engine, inputs := rest, delay := s.delay - 1, responses := .done :: s.responses } := by
  rw [step_access hb hi, hostAccess_admitted (r := .bin b j) (by omega) (admitted_bin b j v)]
  simp [writeAccess, guardedStore, hb, answered]
  rfl

theorem unspecified_bout {e : Engine} (b : Fin 8) (j : Fin 4) (hb : e.status.busy = false) :
    e.unspecified (.bout b j) = false := by
  simp [Engine.unspecified, Status.unguarded, Reg.isRoundKey, Reg.isTable, hb]

theorem unspecified_status (e : Engine) : e.unspecified .status = false := by
  have h : ∀ i, Instr.writesReg i .status = false := fun i => by cases i <;> rfl
  cases hl : e.latch <;> simp [Engine.unspecified, Status.unguarded, Reg.isRoundKey, Reg.isTable, hl, h]

theorem step_readBout {s : State} {b : Fin 8} {j : Fin 4} {rest : List Input} (hb : s.engine.status.busy = false)
    (hi : s.inputs = hostRd s.engineBase (0x0180 + 16 * b.val + 4 * j.val) :: rest) :
    step s =
      .next { s with inputs := rest, delay := s.delay - 1, responses := .data s.engine.bout[b][j] :: s.responses } := by
  rw [step_access hb hi, hostAccess_admitted (r := .bout b j) (by omega) (admitted_bout b j)]
  simp only [readAccess_specified (s := s.takeInput rest) (r := .bout b j) (unspecified_bout b j hb)]
  rfl

/-! ### LDBLK and RDBLK -/

theorem load_block {s : State} (b : Fin 8) (p : BitVec 128) {rest : List Input} (hb : s.engine.status.busy = false)
    (hi : s.inputs = hostLdBlk s.engineBase b p ++ rest) :
    ∃ t, Served s t [.done, .done, .done, .done] ∧ t.inputs = rest ∧ t.engine.status.busy = false ∧
      t.engine.bin[b] = wireWords p ∧ ∀ c : Fin 8, c ≠ b → t.engine.bin[c] = s.engine.bin[c] := by
  have w : ∀ {s : State} (j : Fin 4) (v : Word) {rest}, s.engine.status.busy = false →
      s.inputs = hostWr s.engineBase (0x0100 + 16 * b.val + 4 * j.val) v :: rest →
      ∃ t, Served s t [.done] ∧ t.inputs = rest ∧ t.engine.status.busy = false ∧ t.engine.bin = (Engine.storeBin b j v s.engine).bin :=
    fun j v _ hb hi => ⟨_, .of_step (step_storeBin hb hi) rfl rfl rfl rfl rfl rfl, rfl, hb, rfl⟩
  obtain ⟨t0, h0, i0, b0, e0⟩ := w 0 (wireWord p 0) hb hi
  obtain ⟨t1, h1, i1, b1, e1⟩ := w 1 (wireWord p 1) b0 (by rw [i0, h0.engineBase]; rfl)
  obtain ⟨t2, h2, i2, b2, e2⟩ := w 2 (wireWord p 2) b1 (by rw [i1, h1.engineBase, h0.engineBase]; rfl)
  obtain ⟨t3, h3, i3, b3, e3⟩ := w 3 (wireWord p 3) b2 (by rw [i2, h2.engineBase, h1.engineBase, h0.engineBase]; rfl)
  refine ⟨t3, ((h0.trans h1).trans h2).trans h3, i3, b3, ?_, fun c hc => ?_⟩
  · ext j hj
    simp only [e3, e2, e1, e0, Engine.storeBin]
    interval_cases j <;> simp [wireWords]
  · have hv : b.val ≠ c.val := fun h => hc (Fin.ext h.symm)
    simp only [e3, e2, e1, e0, Engine.storeBin]
    simp [Vector.getElem_set_ne, hv]

theorem read_block {s : State} (b : Fin 8) {rest : List Input} (hb : s.engine.status.busy = false)
    (hi : s.inputs = hostRdBlk s.engineBase b ++ rest) :
    ∃ t, Served s t ((List.finRange 4).map fun j => .data s.engine.bout[b][j]) ∧ t.inputs = rest ∧ t.engine = s.engine := by
  have w : ∀ {s : State} (j : Fin 4) {rest}, s.engine.status.busy = false →
      s.inputs = hostRd s.engineBase (0x0180 + 16 * b.val + 4 * j.val) :: rest →
      ∃ t, Served s t [.data s.engine.bout[b][j]] ∧ t.inputs = rest ∧ t.engine = s.engine :=
    fun j _ hb hi => ⟨_, .of_step (step_readBout hb hi) rfl rfl rfl rfl rfl rfl, rfl, rfl⟩
  obtain ⟨t0, h0, i0, e0⟩ := w 0 hb hi
  obtain ⟨t1, h1, i1, e1⟩ := w 1 (by rw [e0, hb]) (by rw [i0, h0.engineBase]; rfl)
  obtain ⟨t2, h2, i2, e2⟩ := w 2 (by rw [e1, e0, hb]) (by rw [i1, h1.engineBase, h0.engineBase]; rfl)
  obtain ⟨t3, h3, i3, e3⟩ := w 3 (by rw [e2, e1, e0, hb]) (by rw [i2, h2.engineBase, h1.engineBase, h0.engineBase]; rfl)
  rw [e0] at h1
  rw [e1, e0] at h2
  rw [e2, e1, e0] at h3
  exact ⟨t3, ((h0.trans h1).trans h2).trans h3, i3, by rw [e3, e2, e1, e0]⟩

/-! ### All blocks of a batch -/

theorem load_blocks (blocks : List (BitVec 128)) (k : Nat) {s : State} {rest : List Input} (hk : k + blocks.length ≤ 8)
    (hb : s.engine.status.busy = false)
    (hi : s.inputs = (blocks.mapIdx fun b p => hostLdBlk s.engineBase (k + b) p).flatten ++ rest) :
    ∃ t, Served s t (List.replicate (4 * blocks.length) .done) ∧ t.inputs = rest ∧ t.engine.status.busy = false ∧
      (∀ b : Fin 8, b.val < k → t.engine.bin[b] = s.engine.bin[b]) ∧
      ∀ (i : Nat) (h : i < blocks.length), t.engine.bin[k + i]'(by omega) = wireWords blocks[i] := by
  induction blocks generalizing k s with
  | nil => exact ⟨s, .refl s, by simpa using hi, hb, fun _ _ => rfl, fun i h => by simp at h⟩
  | cons p ps ih =>
    simp only [List.length_cons] at hk
    simp only [List.mapIdx_cons, List.flatten_cons, List.append_assoc, Nat.add_zero] at hi
    obtain ⟨t, ht, it, bt, et, ft⟩ := load_block ⟨k, by omega⟩ p hb hi
    obtain ⟨u, hu, iu, bu, fu, eu⟩ := ih (k + 1) (s := t) (by omega) bt (by
      rw [it, ht.engineBase]; simp only [Nat.add_assoc, Nat.add_comm 1])
    refine ⟨u, ?_, iu, bu, fun b hbk => ?_, fun i h => ?_⟩
    · have := ht.trans hu
      rwa [show [BusResponse.done, .done, .done, .done] = List.replicate 4 .done from rfl, List.replicate_append_replicate,
        show 4 + 4 * ps.length = 4 * (p :: ps).length by simp; omega] at this
    · rw [fu b (by omega), ft b (fun h => by rw [h] at hbk; simp at hbk)]
    · cases i with
      | zero => exact (fu ⟨k, by omega⟩ (by simp)).trans et
      | succ i =>
        have := eu i (by simpa using h)
        simp only [List.getElem_cons_succ, ← this]
        congr 1
        omega

theorem read_blocks (blocks : List (BitVec 128)) (k : Nat) {s : State} {rest : List Input} (hk : k + blocks.length ≤ 8)
    (hb : s.engine.status.busy = false)
    (hi : s.inputs = (blocks.mapIdx fun b _ => hostRdBlk s.engineBase (k + b)).flatten ++ rest) :
    ∃ t rs, Served s t rs ∧ t.inputs = rest ∧ t.engine = s.engine ∧ rs.length = 4 * blocks.length ∧
      readBlocks rs = some (blocks.mapIdx fun i _ => wireBlock (s.engine.bout[k + i]?.getD (Vector.replicate 4 0))) := by
  induction blocks generalizing k s with
  | nil => exact ⟨s, [], .refl s, by simpa using hi, rfl, rfl, rfl⟩
  | cons p ps ih =>
    simp only [List.length_cons] at hk
    simp only [List.mapIdx_cons, List.flatten_cons, List.append_assoc, Nat.add_zero] at hi
    obtain ⟨t, ht, it, et⟩ := read_block ⟨k, by omega⟩ hb hi
    obtain ⟨u, rs, hu, iu, eu, lu, ru⟩ := ih (k + 1) (s := t) (by omega) (by rw [et, hb]) (by
      rw [it, ht.engineBase]; simp only [Nat.add_assoc, Nat.add_comm 1])
    refine ⟨u, _, ht.trans hu, iu, by rw [eu, et], by simp [lu]; omega, ?_⟩
    rw [et] at ru
    simp only [List.mapIdx_cons, Nat.add_zero]
    rw [show (s.engine.bout[(⟨k, by omega⟩ : Fin 8)] : Block) = s.engine.bout[k]?.getD (Vector.replicate 4 0) by
      simp [show k < 8 by omega]]
    generalize s.engine.bout[k]?.getD (Vector.replicate 4 0) = w
    have hw : wireBlock #v[w[0], w[1], w[2], w[3]] = wireBlock w := rfl
    rw [show (List.finRange 4).map (fun j => BusResponse.data w[j]) = [.data w[0], .data w[1], .data w[2], .data w[3]] from rfl]
    simp only [List.cons_append, List.nil_append, readBlocks, rdBlkValue, ru, Option.map_some, hw]
    simp only [Nat.add_assoc, Nat.add_comm 1]

/-! ### The answers to a script -/

theorem answers_append (a b : List Input) (rs : List BusResponse) :
    answers (a ++ b) rs = (answers a rs).bind fun x => (answers b x.2).map fun y => (x.1 ++ y.1, y.2) := by
  induction a generalizing rs with
  | nil => simp [answers]
  | cons i is ih =>
    cases i with
    | access _ =>
      cases rs with
      | nil => rfl
      | cons r rs =>
        simp only [List.cons_append, answers, ih]
        cases answers is rs <;> simp [Function.comp_def]
    | poll =>
      simp only [List.cons_append, answers]
      cases pollAnswer rs with
      | none => rfl
      | some p =>
        simp only [ih]
        cases answers is p.2 <;> simp [Function.comp_def]
    | reset => simpa only [List.cons_append, answers] using ih rs

/-- A script of accesses alone takes one response for each. -/
theorem answers_accesses {is : List Input} (h : ∀ i ∈ is, ∃ a, i = .access a) (rs tail : List BusResponse)
    (hl : rs.length = is.length) : answers is (rs ++ tail) = some (rs, tail) := by
  induction is generalizing rs with
  | nil => simp [List.length_eq_zero_iff.mp hl, answers]
  | cons i is ih =>
    obtain ⟨a, rfl⟩ := h i (by simp)
    cases rs with
    | nil => simp at hl
    | cons r rs => simp [answers, ih (fun j hj => h j (by simp [hj])) rs (by simpa using hl)]

/-- Four accesses for each block. -/
theorem accesses_of_blocks (f : Nat → BitVec 128 → List Input) (hf : ∀ b p, (∀ i ∈ f b p, ∃ a, i = .access a) ∧ (f b p).length = 4)
    (blocks : List (BitVec 128)) :
    (∀ i ∈ (blocks.mapIdx f).flatten, ∃ a, i = .access a) ∧ (blocks.mapIdx f).flatten.length = 4 * blocks.length := by
  constructor
  · intro i hi
    obtain ⟨l, hl, hi⟩ := List.mem_flatten.mp hi
    obtain ⟨k, hk, rfl⟩ := List.mem_mapIdx.mp hl
    exact (hf _ _).1 i hi
  · rw [List.length_flatten, List.sum_eq_card_nsmul _ 4]
    · simp [Nat.mul_comm]
    · intro n hn
      obtain ⟨l, hl, rfl⟩ := List.mem_map.mp hn
      obtain ⟨k, hk, rfl⟩ := List.mem_mapIdx.mp hl
      exact (hf _ _).2

theorem accesses_load (base : Nat) (blocks : List (BitVec 128)) :
    (∀ i ∈ (blocks.mapIdx fun b p => hostLdBlk base b p).flatten, ∃ a, i = .access a) ∧
      (blocks.mapIdx fun b p => hostLdBlk base b p).flatten.length = 4 * blocks.length :=
  accesses_of_blocks _ (fun _ _ => ⟨fun _ hi => by obtain ⟨j, _, rfl⟩ := List.mem_map.mp hi; exact ⟨_, rfl⟩, rfl⟩) blocks

theorem accesses_read (base : Nat) (blocks : List (BitVec 128)) :
    (∀ i ∈ (blocks.mapIdx fun b _ => hostRdBlk base b).flatten, ∃ a, i = .access a) ∧
      (blocks.mapIdx fun b _ => hostRdBlk base b).flatten.length = 4 * blocks.length :=
  accesses_of_blocks (fun b _ => hostRdBlk base b)
    (fun _ _ => ⟨fun _ hi => by obtain ⟨j, _, rfl⟩ := List.mem_map.mp hi; exact ⟨_, rfl⟩, rfl⟩) blocks

/-! ### Issue and POLL -/

theorem step_poll_idle {s : State} {rest : List Input} (hb : s.engine.status.busy = false) (hi : s.inputs = .poll :: rest) :
    step s = .next { s with inputs := rest, delay := s.delay - 1, responses := .data s.engine.status.word :: s.responses } := by
  have ht : s.turn = .outside .poll rest := by simp [State.turn, hi, hb]
  unfold step nextEvent
  simp only [ht, hostTurn, pollStatus, readAccess_specified (s := s.takeInput rest) (unspecified_status _), takeInput_engine, hb]
  rfl

theorem step_poll_busy {s : State} {rest : List Input} {d : Nat} (hb : s.engine.status.busy = true) (hd : s.delay = d + 1)
    (hi : s.inputs = .poll :: rest) :
    step s = .next { s with delay := d, responses := .data s.engine.status.word :: s.responses } := by
  have ht : s.turn = .outside .poll rest := by simp [State.turn, hi, hd]
  unfold step nextEvent
  simp only [ht, hostTurn, pollStatus, readAccess_specified (s := s.takeInput rest) (unspecified_status _), takeInput_engine, hb,
    if_true]
  cases s
  simp_all [State.takeInput, State.respond]
  rfl

theorem word_busy (f : Status) : f.word.getLsbD 0 = f.busy := by
  rcases f with ⟨b, t, k, e, st⟩
  have h : (Status.word ⟨b, t, k, e, st⟩).getLsbD 0 =
    (0#18 ++ st ++ 0#1 ++ e ++ 0#1 ++ BitVec.ofBool k ++ BitVec.ofBool t ++ BitVec.ofBool b).getLsbD 0 := rfl
  rw [h]
  simp only [BitVec.getLsbD_append]
  simp

/-- What a running batch command leaves, whatever polls come before its completion. -/
theorem poll_batch {s : State} {rest : List Input} {i : Instr} {len : Byte} {order : Fin 32 → Fin 32}
    (hc : ∀ s : State, s.engine.latch = some i → complete s = .next (completeBatch len order s))
    (hb : s.engine.status.busy = true) (hl : s.engine.latch = some i) (hi : s.inputs = .poll :: rest) :
    ∃ t rs a, Served s t rs ∧ t.inputs = rest ∧ t.engine.status.busy = false ∧
      (∀ tail, pollAnswer (rs ++ tail) = some (a, tail)) ∧ t.engine.bout = (runBatch (blockCount len) order s.engine).bout := by
  induction hd : s.delay generalizing s with
  | zero =>
    have hs : step s = .next (completeBatch len order s) := by
      have ht : s.turn = .completion := by simp [State.turn, hi, hb, hd]
      unfold step nextEvent
      simp only [ht, hc s hl]
    have hs1 := Served.of_step (rs := []) hs (by rw [completeBatch_eq]; rfl) (by rw [completeBatch_eq]) (by rw [completeBatch_eq])
      (by rw [completeBatch_eq]) (by rw [completeBatch_eq]; rfl) (by rw [completeBatch_eq]; rfl)
    have hb1 : (completeBatch len order s).engine.status.busy = false := by rw [completeBatch_eq]; rfl
    have h2 := step_poll_idle (rest := rest) hb1 (by rw [completeBatch_eq]; exact hi)
    refine ⟨_, _, .data (completeBatch len order s).engine.status.word, hs1.trans (.of_step h2 (rs := [.data _]) rfl rfl rfl rfl rfl rfl), rfl, hb1, fun tail => ?_, ?_⟩
    · simp only [List.nil_append, List.cons_append, pollAnswer, word_busy, hb1]
      rfl
    · show (completeBatch len order s).engine.bout = _
      rw [completeBatch_eq]
  | succ d ih =>
    have hs := step_poll_busy hb hd hi
    obtain ⟨t, rs, a, ht, it, bt, pt, et⟩ := ih (s := { s with delay := d, responses := .data s.engine.status.word :: s.responses })
      hb hl hi rfl
    refine ⟨t, _, a, (Served.of_step hs (rs := [.data _]) rfl rfl rfl rfl rfl rfl).trans ht, it, bt, fun tail => ?_, et⟩
    simp only [List.cons_append, List.nil_append, pollAnswer, word_busy, hb, if_true, pt]

/-! ### One batch -/

/-- A block through the engine's cipher, in wire order (R174). -/
def blockThrough (d : Direction) (t : Tables) (rk : Vector Word 32) (p : BitVec 128) : BitVec 128 :=
  match d with
  | .encrypt => wireBlock (crypt t (wireWords p) rk)
  | .decrypt => wireBlock (crypt t (wireWords p) rk.reverse)

theorem runBatch_forward (n : Nat) (e : Engine) (b : Fin 8) (h : b.val < n) :
    (runBatch n id e).bout[b] = crypt e.tables e.bin[b] e.rk := by
  rw [runBatch_bout, if_pos h, roundKeys_forward]; rfl

theorem runBatch_backward (n : Nat) (e : Engine) (b : Fin 8) (h : b.val < n) :
    (runBatch n Fin.rev e).bout[b] = crypt e.tables e.bin[b] e.rk.reverse := by
  rw [runBatch_bout, if_pos h, roundKeys_backward]; rfl

/-- An engine that can run a batch. -/
structure Usable (s : State) : Prop where
  idle : s.engine.status.busy = false
  tables : s.engine.status.tablesValid = true
  keys : s.engine.status.keysValid = true

theorem step_issue {s : State} {c : AsmCommand} {i : Instr} {rest : List Input} (hw : decode c.word = .ok i)
    (hb : s.engine.status.busy = false) (he : commandError i s.engine.status = none)
    (hi : s.inputs = hostIssue s.engineBase c :: rest) :
    ∃ t, Served s t [.done] ∧ t.inputs = rest ∧ t.engine.status.busy = true ∧ t.engine.latch = some i ∧
      t.engine.bin = s.engine.bin := by
  have hs : step s = .next ((accept i (commandLatency i (s.takeInput rest)) ((s.takeInput rest).storeCmd (encode i))).respond .done) := by
    rw [step_access (off := 0) (k := .write c.word) (rest := rest) hb hi, hostAccess_admitted (r := .cmd) (by omega) rfl]
    simp only [writeAccess, issueWord, hw, exec_of_ok (i := i) (s := s.takeInput rest) hb he, answered]
  exact ⟨_, .of_step hs rfl rfl rfl rfl rfl rfl, rfl, rfl, rfl, rfl⟩

theorem batch_legal (n : Nat) (h1 : 1 ≤ n) (h8 : n ≤ 8) :
    batchLengthOk (BitVec.ofNat 8 (16 * n)) = true ∧ blockCount (BitVec.ofNat 8 (16 * n)) = n := by
  interval_cases n <;> decide

/-- A batch from its script to its answer: the blocks come out ciphered, in order, and the answer reads just its own responses. -/
theorem serve_batch (d : Direction) (blocks : List (BitVec 128)) {s : State} {rest : List Input} (h1 : 1 ≤ blocks.length)
    (h8 : blocks.length ≤ 8) (hu : Usable s) (hi : s.inputs = batchScript s.engineBase d blocks ++ rest) :
    ∃ t rs, Served s t rs ∧ t.inputs = rest ∧ Usable t ∧
      ∀ tail, batchBlocks s.engineBase d blocks (rs ++ tail) =
        some (blocks.map (blockThrough d s.engine.tables s.engine.rk), tail) := by
  obtain ⟨hlen, hcount⟩ := batch_legal _ h1 h8
  unfold batchScript at hi
  simp only [List.append_assoc] at hi
  obtain ⟨t1, s1, i1, b1, _, e1⟩ := load_blocks blocks 0 (by omega) hu.idle (by simpa using hi)
  have hcmd : ∃ i order, decode (d.command blocks.length).word = .ok i ∧ commandError i t1.engine.status = none ∧
      (∀ s : State, s.engine.latch = some i → complete s = .next (completeBatch (BitVec.ofNat 8 (16 * blocks.length)) order s)) ∧
      ∀ (e : Engine) (b : Fin 8), b.val < blocks.length → (runBatch blocks.length order e).bout[b] =
        match d with
        | .encrypt => crypt e.tables e.bin[b] e.rk
        | .decrypt => crypt e.tables e.bin[b] e.rk.reverse := by
    have hf : t1.engine.status.tablesValid = true ∧ t1.engine.status.keysValid = true :=
      ⟨s1.tablesValid.trans hu.tables, s1.keysValid.trans hu.keys⟩
    have hdec : ∀ n, 1 ≤ n → n ≤ 8 → ∀ d : Direction, decode (d.command n).word =
        .ok (match d with | .encrypt => .encb (BitVec.ofNat 8 (16 * n)) | .decrypt => .decb (BitVec.ofNat 8 (16 * n))) := by
      intro n h1 h8 d
      cases d <;> interval_cases n <;> decide
    cases d with
    | encrypt =>
      exact ⟨_, id, hdec _ h1 h8 _, by simp [commandError, batchError, hf, hlen], fun s hl => by simp only [complete, hl]; rfl,
        fun e b hb => runBatch_forward _ e b hb⟩
    | decrypt =>
      exact ⟨_, Fin.rev, hdec _ h1 h8 _, by simp [commandError, batchError, hf, hlen], fun s hl => by simp only [complete, hl]; rfl,
        fun e b hb => runBatch_backward _ e b hb⟩
  obtain ⟨i, order, hdec, herr, hcomp, hout⟩ := hcmd
  obtain ⟨t2, s2, i2, b2, l2, e2⟩ := step_issue hdec b1 herr (by rw [i1, s1.engineBase])
  obtain ⟨t3, rs3, a, s3, i3, b3, p3, e3⟩ := poll_batch hcomp b2 l2 i2
  obtain ⟨t4, rs4, s4, i4, e4, l4, r4⟩ := read_blocks blocks 0 (s := t3) (rest := rest) (by omega) b3 (by
    rw [i3, s3.engineBase, s2.engineBase, s1.engineBase]; simp)
  have hs := ((s1.trans s2).trans s3).trans s4
  refine ⟨t4, _, hs, i4, ⟨by rw [e4, b3], hs.tablesValid.trans hu.tables, hs.keysValid.trans hu.keys⟩, fun tail => ?_⟩
  have hblocks : (blocks.mapIdx fun i _ => wireBlock (t3.engine.bout[0 + i]?.getD (Vector.replicate 4 0))) =
      blocks.map (blockThrough d s.engine.tables s.engine.rk) := by
    apply List.ext_getElem
    · simp
    · intro k hk _
      have hk' : k < blocks.length := by simpa using hk
      have h := hout t2.engine ⟨k, by omega⟩ hk'
      have hbin : t2.engine.bin[(⟨k, by omega⟩ : Fin 8)] = wireWords blocks[k] := by
        rw [e2]
        have := e1 k hk'
        simpa using this
      rw [hcount] at e3
      rw [hbin, s2.tables, s1.tables, s2.rk, s1.rk] at h
      have hlt : k < 8 := by omega
      simp only [List.getElem_mapIdx, List.getElem_map, e3, Nat.zero_add, Vector.getElem?_eq_getElem hlt, Option.getD_some]
      have h' : (runBatch blocks.length order t2.engine).bout[k] = _ := h
      rw [h']
      cases d <;> rfl
  have hanswer : answers (batchScript s.engineBase d blocks)
      (((List.replicate (4 * blocks.length) BusResponse.done ++ [.done]) ++ rs3 ++ rs4) ++ tail) =
      some ((List.replicate (4 * blocks.length) BusResponse.done ++ [.done, a]) ++ rs4, tail) := by
    obtain ⟨al, ll⟩ := accesses_load s.engineBase blocks
    obtain ⟨ar, lr⟩ := accesses_read s.engineBase blocks
    unfold batchScript
    simp only [List.append_assoc]
    rw [answers_append, answers_accesses al _ _ (by rw [ll, List.length_replicate])]
    simp only [Option.bind_some]
    rw [answers_append]
    simp only [List.cons_append, List.nil_append, hostIssue, hostWr, answers, p3, Option.map_some, Option.bind_some]
    rw [answers_accesses ar _ _ (by rw [lr, l4])]
    simp
  unfold batchBlocks
  rw [hanswer]
  have hdrop : ((List.replicate (4 * blocks.length) BusResponse.done ++ [.done, a]) ++ rs4).drop (4 * blocks.length + 2) = rs4 :=
    List.drop_left' (by simp)
  simp only [hdrop, r4, hblocks, Option.map_some]

/-! ### Output ranges -/

/-- The output with blocks a .. b-1 taken from F. -/
def patch (F : List (BitVec 128)) (a b : Nat) (out : List (BitVec 128)) : List (BitVec 128) :=
  out.mapIdx fun i x => if a ≤ i ∧ i < b then F.getD i 0 else x

theorem length_patch (F : List (BitVec 128)) (a b : Nat) (out : List (BitVec 128)) : (patch F a b out).length = out.length := by
  simp [patch]

theorem patch_patch (F : List (BitVec 128)) {a b c : Nat} (hab : a ≤ b) (hbc : b ≤ c) (out : List (BitVec 128)) :
    patch F b c (patch F a b out) = patch F a c out := by
  apply List.ext_getElem
  · simp [patch]
  · intro i h1 h2
    simp only [patch, List.getElem_mapIdx]
    split_ifs <;> first | rfl | omega

theorem patch_empty (F : List (BitVec 128)) (a : Nat) (out : List (BitVec 128)) : patch F a a out = out := by
  apply List.ext_getElem
  · simp [patch]
  · intro i h1 h2
    simp only [patch, List.getElem_mapIdx]
    rw [if_neg (by omega)]

theorem patch_all (F out : List (BitVec 128)) (h : out.length = F.length) : patch F 0 F.length out = F := by
  apply List.ext_getElem
  · simp [patch, h]
  · intro i h1 h2
    simp only [patch, List.getElem_mapIdx]
    rw [if_pos ⟨Nat.zero_le _, h2⟩, List.getD_eq_getElem _ _ h2]

/-- Blocks read to their place are a range of the output. -/
theorem putBlocks_map (f : BitVec 128 → BitVec 128) (buffer : List (BitVec 128)) (first n : Nat) (out : List (BitVec 128))
    (h : first + n ≤ buffer.length) :
    putBlocks first (((buffer.drop first).take n).map f) out = patch (buffer.map f) first (first + n) out := by
  apply List.ext_getElem
  · simp [patch, putBlocks]
  · intro i h1 h2
    simp only [patch, putBlocks, List.getElem_mapIdx]
    by_cases hi : first ≤ i
    · by_cases hn : i < first + n
      · rw [if_pos hi, if_pos ⟨hi, hn⟩, List.getD_eq_getElem _ _ (by simp; omega), List.getD_eq_getElem _ _ (by simp; omega)]
        simp only [List.getElem_map, List.getElem_take, List.getElem_drop]
        congr 2
        omega
      · rw [if_pos hi, if_neg (by omega), List.getD_eq_default _ _ (by simp; omega)]
    · rw [if_neg hi, if_neg (by omega)]

/-! ### The batches of a worker -/

theorem serve_batches (d : Direction) (buffer : List (BitVec 128)) (n q : Nat) {s : State} {rest : List Input}
    (h : 8 * (q + n) ≤ buffer.length) (hu : Usable s)
    (hi : s.inputs = ((List.range' q n).flatMap fun q => batchScript s.engineBase d (batchOf buffer q)) ++ rest) :
    ∃ t rs, Served s t rs ∧ t.inputs = rest ∧ Usable t ∧
      ∀ tail out, storeBatches s.engineBase d buffer n q (rs ++ tail) out =
        some (patch (buffer.map (blockThrough d s.engine.tables s.engine.rk)) (8 * q) (8 * (q + n)) out) := by
  induction n generalizing q s with
  | zero => exact ⟨s, [], .refl s, by simpa using hi, hu, fun tail out => by simp [storeBatches, patch_empty]⟩
  | succ n ih =>
    rw [List.range'_succ, List.flatMap_cons, List.append_assoc] at hi
    have hlen : (batchOf buffer q).length = 8 := by simp [batchOf, Config.laneWidth]; omega
    obtain ⟨t, rs, st, it, ut, ot⟩ := serve_batch d (batchOf buffer q) (by omega) (by omega) hu hi
    obtain ⟨u, rs', su, iu, uu, ou⟩ := ih (q + 1) (s := t) (by omega) ut (by rw [it, st.engineBase])
    refine ⟨u, rs ++ rs', st.trans su, iu, uu, fun tail out => ?_⟩
    simp only [st.engineBase, st.tables, st.rk] at ou
    simp only [storeBatches, List.append_assoc, ot, ou]
    rw [show batchOf buffer q = (buffer.drop (8 * q)).take 8 from rfl, show Config.laneWidth * q = 8 * q from rfl,
      putBlocks_map _ _ _ _ _ (by omega)]
    rw [show 8 * q + 8 = 8 * (q + 1) by ring, patch_patch _ (by omega) (by omega), show q + 1 + n = q + (n + 1) by ring]

theorem start_succ (b w n : Nat) : start b n (w + 1) = start b n w + count b n w := by
  unfold start count
  rw [Nat.add_mul, Nat.one_mul]
  split <;> omega

theorem start_mono (b n : Nat) {w v : Nat} (h : w ≤ v) : start b n w ≤ start b n v := by
  induction h with
  | refl => exact Nat.le_refl _
  | step _ ih => rw [start_succ]; omega

theorem start_all (b : Nat) {n : Nat} (h : 1 ≤ n) : start b n n = b := by
  unfold start
  have h1 := Nat.div_add_mod b n
  have h2 := Nat.mod_lt b h
  rw [Nat.min_eq_right (by omega)]
  omega

/-- An engine with nothing to do, and able to run a batch. -/
structure Free (s : State) : Prop extends Usable s where
  inputs : s.inputs = []

theorem serve_worker (job : Job) {w : Nat} {s : State} (hw : w < job.workers) (hs : Free s) :
    ∃ t rs, Served (s.give (workerScript s.engineBase job.direction job.blocks job.workers w)) t rs ∧ Free t ∧
      ∀ out, storeWorker s.engineBase job.direction job.blocks job.workers w rs out =
        some (patch (job.blocks.map (blockThrough job.direction s.engine.tables s.engine.rk))
          (8 * start (totalBatches job.blocks.length) job.workers w)
          (8 * start (totalBatches job.blocks.length) job.workers (w + 1)) out) := by
  have h8 : 8 * start (totalBatches job.blocks.length) job.workers (w + 1) ≤ job.blocks.length := by
    have := start_mono (totalBatches job.blocks.length) job.workers (show w + 1 ≤ job.workers by omega)
    rw [start_all _ (by omega)] at this
    have hd : 8 * totalBatches job.blocks.length ≤ job.blocks.length := Nat.mul_div_le _ _
    omega
  rw [start_succ] at h8 ⊢
  obtain ⟨t, rs, st, it, ut, ot⟩ := serve_batches job.direction job.blocks (count (totalBatches job.blocks.length) job.workers w)
    (start (totalBatches job.blocks.length) job.workers w)
    (s := s.give (workerScript s.engineBase job.direction job.blocks job.workers w)) (rest := []) h8
    ⟨hs.idle, hs.tables, hs.keys⟩ (by simp [State.give, hs.inputs, workerScript])
  exact ⟨t, rs, st, ⟨ut, it⟩, fun out => by simpa [storeWorker, State.give] using ot [] out⟩

theorem serve_remainder (job : Job) {s : State} (hs : Free s) :
    ∃ t rs, Served (s.give (remainderScript s.engineBase job.direction job.blocks)) t rs ∧ Free t ∧
      ∀ out, storeRemainder s.engineBase job.direction job.blocks rs out =
        some (patch (job.blocks.map (blockThrough job.direction s.engine.tables s.engine.rk))
          (8 * totalBatches job.blocks.length) job.blocks.length out) := by
  have hd : 8 * totalBatches job.blocks.length + remainder job.blocks.length = job.blocks.length := Nat.div_add_mod _ _
  have hr : remainder job.blocks.length < 8 := Nat.mod_lt _ (by decide)
  by_cases h0 : remainder job.blocks.length = 0
  · refine ⟨s.give [], [], ?_, ?_, fun out => ?_⟩
    · simp only [remainderScript, h0, if_true]; exact .refl _
    · exact ⟨⟨hs.idle, hs.tables, hs.keys⟩, by simp [State.give, hs.inputs]⟩
    · simp only [storeRemainder, h0, if_true]
      rw [show 8 * totalBatches job.blocks.length = job.blocks.length by omega, patch_empty]
  · have hlen : (leftOver job.blocks).length = remainder job.blocks.length := by
      simp only [leftOver, Config.laneWidth, List.length_drop]
      omega
    obtain ⟨t, rs, st, it, ut, ot⟩ := serve_batch job.direction (leftOver job.blocks)
      (s := s.give (remainderScript s.engineBase job.direction job.blocks)) (rest := []) (by omega) (by omega)
      ⟨hs.idle, hs.tables, hs.keys⟩ (by simp [State.give, hs.inputs, remainderScript, h0])
    refine ⟨t, rs, st, ⟨ut, it⟩, fun out => ?_⟩
    have ho := ot []
    simp only [List.append_nil, State.give] at ho
    simp only [storeRemainder, h0, if_false, ho, Option.map_some]
    have hl : leftOver job.blocks = (job.blocks.drop (8 * totalBatches job.blocks.length)).take (remainder job.blocks.length) := by
      rw [List.take_of_length_le (by simp; omega)]; rfl
    rw [hl, show Config.laneWidth * totalBatches job.blocks.length = 8 * totalBatches job.blocks.length from rfl,
      putBlocks_map _ _ _ _ _ (by omega), hd]

/-! ### An engine with nothing to do stays as it is -/

theorem step_idle {s : State} (h : s.idle = true) : step s = .next s := by
  simp only [State.idle, Bool.and_eq_true, List.isEmpty_iff, Bool.not_eq_true'] at h
  have ht : s.turn = .idle := by simp [State.turn, h.1, h.2]
  unfold Machine.step nextEvent
  simp only [ht]

theorem runSteps_idle {s : State} (h : s.idle = true) (n : Nat) : runSteps n s = .next s := by
  induction n with
  | zero => rfl
  | succ n ih => rw [runSteps, step_idle h]; exact ih

/-- Two runs from one state that end with nothing to do end alike. -/
theorem runSteps_end_unique {m n : Nat} {s t u : State} (hm : runSteps m s = .next t) (ht : t.idle = true)
    (hn : runSteps n s = .next u) (hu : u.idle = true) : t = u := by
  have h1 := runSteps_add hm (runSteps_idle ht n)
  have h2 := runSteps_add hn (runSteps_idle hu m)
  rw [Nat.add_comm, h2] at h1
  injection h1 with h1
  exact h1.symm

theorem Free.idle_eq {s : State} (h : Free s) : s.idle = true := by simp [State.idle, h.inputs, h.idle]

theorem since_served {s s' t : State} {rs : List BusResponse} (h : Served s' t rs) (he : s'.responses = s.responses) :
    State.since s t = rs := by
  simp [State.since, h.responses, he]

/-! ### The engines of a system move each on its own -/

theorem stepAt_cases {k : Nat} {sys sys' : System} (h : sys.stepAt k = .next sys') :
    (sys.engines[k]? = none ∧ sys' = sys) ∨
    ∃ s s', sys.engines[k]? = some s ∧ step s = .next s' ∧ sys' = ⟨sys.engines.set k s'⟩ := by
  unfold System.stepAt at h
  split at h
  · next hn => injection h with h; exact .inl ⟨hn, h.symm⟩
  · next s hs =>
    split at h
    · next s' hs' => injection h with h; exact .inr ⟨s, s', hs, hs', h.symm⟩
    · cases h
    · cases h

/-- Along any order each engine makes a run of its own. -/
theorem runAlong_engine {order : List Nat} {sys sys' : System} (h : sys.runAlong order = .next sys') (j : Nat) (s : State)
    (hj : sys.engines[j]? = some s) : ∃ n s', runSteps n s = .next s' ∧ sys'.engines[j]? = some s' := by
  induction order generalizing sys s with
  | nil => injection h with h; subst h; exact ⟨0, s, rfl, hj⟩
  | cons k ks ih =>
    rw [System.runAlong] at h
    cases hk : sys.stepAt k with
    | fault => simp only [hk] at h; cases h
    | refused => simp only [hk] at h; cases h
    | next m =>
      simp only [hk] at h
      rcases stepAt_cases hk with ⟨_, rfl⟩ | ⟨a, a', ha, hs, rfl⟩
      · exact ih h s hj
      · by_cases hjk : k = j
        · subst hjk
          rw [ha] at hj
          injection hj with hj
          subst hj
          obtain ⟨n, s', hn, hs'⟩ := ih h a' (by
            have := (List.getElem?_eq_some_iff.mp ha).1
            simp [this])
          exact ⟨n + 1, s', by rw [runSteps, hs]; exact hn, hs'⟩
        · exact ih h s (by simpa [List.getElem?_set_ne hjk] using hj)

theorem runAlong_append {xs ys : List Nat} {sys m t : System} (h : sys.runAlong xs = .next m) (h' : m.runAlong ys = .next t) :
    sys.runAlong (xs ++ ys) = .next t := by
  induction xs generalizing sys with
  | nil => injection h with h; subst h; exact h'
  | cons k ks ih =>
    rw [List.cons_append, System.runAlong]
    rw [System.runAlong] at h
    cases hk : sys.stepAt k with
    | next a => simp only [hk] at h; exact ih h
    | fault => simp only [hk] at h; cases h
    | refused => simp only [hk] at h; cases h

/-- One engine's run, as an order. -/
theorem runAlong_replicate {n k : Nat} {sys : System} {s t : State} (hk : sys.engines[k]? = some s) (h : runSteps n s = .next t) :
    sys.runAlong (List.replicate n k) = .next ⟨sys.engines.set k t⟩ := by
  induction n generalizing sys s with
  | zero =>
    injection h with h
    subst h
    obtain ⟨_, rfl⟩ := List.getElem?_eq_some_iff.mp hk
    simp [System.runAlong]
  | succ n ih =>
    rw [runSteps] at h
    cases hs : step s with
    | fault => simp only [hs] at h; cases h
    | refused => simp only [hs] at h; cases h
    | next s' =>
      simp only [hs] at h
      have hlt := (List.getElem?_eq_some_iff.mp hk).1
      have hst : sys.stepAt k = .next ⟨sys.engines.set k s'⟩ := by unfold System.stepAt; simp only [hk, hs]
      rw [List.replicate_succ, System.runAlong, hst]
      have := ih (sys := ⟨sys.engines.set k s'⟩) (s := s') (by simp [hlt]) h
      simpa using this

/-! ### A job -/

theorem joined_engine {used j : Nat} {sys : System} {s : State} (h : sys.joined used = true) (hj : j < used)
    (hs : sys.engines[j]? = some s) : s.idle = true := by
  obtain ⟨hl, rfl⟩ := List.getElem?_eq_some_iff.mp hs
  refine List.all_eq_true.mp h _ (List.mem_iff_getElem.mpr ⟨j, by simp; omega, by simp⟩)

theorem along_engine {order : List Nat} {sys sys' : System} (h : sys.along order = some sys') (j : Nat) (s : State)
    (hj : sys.engines[j]? = some s) : ∃ n s', runSteps n s = .next s' ∧ sys'.engines[j]? = some s' := by
  unfold System.along at h
  split at h
  · next t ht => injection h with h; subst h; exact runAlong_engine ht j s hj
  · cases h
  · cases h

/-- The engines of a job: nothing to do, able to run a batch, and alike in tables and round keys. -/
def JobReady (job : Job) (sys : System) (t : Tables) (rk : Vector Word 32) : Prop :=
  job.workers ≤ sys.engines.length ∧
    ∀ j s, j < job.workers → sys.engines[j]? = some s → Free s ∧ s.engine.tables = t ∧ s.engine.rk = rk

theorem startWorkers_engine {job : Job} {sys : System} {j : Nat} {s : State} (hj : j < job.workers)
    (hs : sys.engines[j]? = some s) :
    (sys.startWorkers job).engines[j]? = some (s.give (workerScript s.engineBase job.direction job.blocks job.workers j)) := by
  simp [System.startWorkers, hs, hj]

/-- What the join finds on worker j's engine. -/
theorem worker_at_join {job : Job} {sys joined : System} {t : Tables} {rk : Vector Word 32} {order : List Nat}
    (hr : JobReady job sys t rk) (ha : (sys.startWorkers job).along order = some joined) (hj : joined.joined job.workers = true)
    {w : Nat} (hw : w < job.workers) :
    ∃ u, joined.engines[w]? = some u ∧ Free u ∧ u.engine.tables = t ∧ u.engine.rk = rk ∧
      ∀ out, storeFrom job sys joined w out =
        some (patch (job.blocks.map (blockThrough job.direction t rk))
          (8 * start (totalBatches job.blocks.length) job.workers w)
          (8 * start (totalBatches job.blocks.length) job.workers (w + 1)) out) := by
  have hlen := hr.1
  have hs : sys.engines[w]? = some sys.engines[w] := List.getElem?_eq_getElem (by omega)
  obtain ⟨hf, rfl, rfl⟩ := hr.2 w _ hw hs
  obtain ⟨u, rs, su, fu, ou⟩ := serve_worker job hw hf
  obtain ⟨n, s', hn, hs'⟩ := along_engine ha w _ (startWorkers_engine hw hs)
  obtain ⟨m, hm⟩ := su.run
  have := runSteps_end_unique hm fu.idle_eq hn (joined_engine hj hw hs')
  subst this
  refine ⟨u, hs', fu, su.tables, su.rk, fun out => ?_⟩
  unfold storeFrom
  simp only [hs, hs']
  rw [since_served (s := sys.engines[w]) su rfl]
  exact ou out

theorem storeWorkers_eq {job : Job} {sys joined : System} {t : Tables} {rk : Vector Word 32} {order : List Nat}
    (hr : JobReady job sys t rk) (ha : (sys.startWorkers job).along order = some joined) (hj : joined.joined job.workers = true)
    (n : Nat) (hn : n ≤ job.workers) (out : List (BitVec 128)) :
    storeWorkers job sys joined n out =
      some (patch (job.blocks.map (blockThrough job.direction t rk)) 0
        (8 * start (totalBatches job.blocks.length) job.workers n) out) := by
  induction n with
  | zero => simp [storeWorkers, start, patch_empty]
  | succ n ih =>
    obtain ⟨_, _, _, _, _, ho⟩ := worker_at_join hr ha hj (w := n) (by omega)
    rw [storeWorkers, ih (by omega), Option.bind_some, ho, patch_patch _ (Nat.zero_le _)]
    exact Nat.mul_le_mul_left 8 (start_mono _ _ (Nat.le_succ n))

theorem joined_modify_other {sys : System} {f : State → State} {j : Nat} (hj : 0 < j) :
    ({ engines := sys.engines.modify 0 f } : System).engines[j]? = sys.engines[j]? := by
  obtain ⟨j, rfl⟩ := Nat.exists_eq_add_of_lt hj
  simp

/-- Whatever the orders, a job that ends gives every block through the cipher, in place. -/
theorem runJob_output {job : Job} {sys : System} {t : Tables} {rk : Vector Word 32} {first last : List Nat}
    {out : List (BitVec 128)} (h1 : 1 ≤ job.workers) (hr : JobReady job sys t rk) (h : runJob job first last sys = some out) :
    out = job.blocks.map (blockThrough job.direction t rk) := by
  unfold runJob at h
  simp only [Option.bind_eq_bind, Option.bind_eq_some_iff] at h
  obtain ⟨joined, ha, rest, hsr, ended, hl, h⟩ := h
  split_ifs at h with he
  simp only [Option.bind_eq_some_iff] at h
  obtain ⟨out1, ho1, ho2⟩ := h
  unfold System.startRemainder at hsr
  split_ifs at hsr with hj
  injection hsr with hsr
  rw [storeWorkers_eq hr ha hj _ (Nat.le_refl _), start_all _ h1] at ho1
  injection ho1 with ho1
  obtain ⟨u, hu, fu, rfl, rfl, _⟩ := worker_at_join hr ha hj (w := 0) h1
  obtain ⟨v, rs, sv, fv, ov⟩ := serve_remainder job fu
  have hg : rest.engines[0]? = some (u.give (remainderScript u.engineBase job.direction job.blocks)) := by
    rw [← hsr]; simp [hu]
  obtain ⟨n, v', hn, hv'⟩ := along_engine hl 0 _ hg
  obtain ⟨m, hm⟩ := sv.run
  have := runSteps_end_unique hm fv.idle_eq hn (joined_engine he h1 hv')
  subst this
  unfold storeLast at ho2
  simp only [hu, hv'] at ho2
  rw [since_served (s := u) sv rfl, ov] at ho2
  injection ho2 with ho2
  have hd : 8 * totalBatches job.blocks.length ≤ job.blocks.length := Nat.mul_div_le _ _
  rw [← ho2, ← ho1, patch_patch _ (Nat.zero_le _) hd]
  have hp := patch_all (job.blocks.map (blockThrough job.direction u.engine.tables u.engine.rk))
    (List.replicate job.blocks.length 0) (by simp)
  rwa [List.length_map] at hp

/-- An order that brings engines 0 .. n-1 to the ends of their runs. -/
theorem along_all (n : Nat) {sys : System} (hn : n ≤ sys.engines.length)
    (h : ∀ j s, j < n → sys.engines[j]? = some s → ∃ k t, runSteps k s = .next t ∧ t.idle = true) :
    ∃ order sys', sys.runAlong order = .next sys' ∧ sys'.engines.length = sys.engines.length ∧
      (∀ j s, j < n → sys'.engines[j]? = some s → s.idle = true) ∧ ∀ j, n ≤ j → sys'.engines[j]? = sys.engines[j]? := by
  induction n with
  | zero => exact ⟨[], sys, rfl, rfl, fun _ _ h => by omega, fun _ _ => rfl⟩
  | succ n ih =>
    obtain ⟨order, m, hm, lm, im, om⟩ := ih (by omega) fun j s hj => h j s (by omega)
    have hs : sys.engines[n]? = some sys.engines[n] := List.getElem?_eq_getElem (by omega)
    obtain ⟨k, t, hk, ht⟩ := h n _ (by omega) hs
    have hr := runAlong_replicate (by rw [om n (Nat.le_refl n), hs]) hk
    refine ⟨_, _, runAlong_append hm hr, by simpa using lm, fun j s hj hs' => ?_, fun j hj => ?_⟩
    · by_cases hjn : n = j
      · subst hjn
        simp [show n < m.engines.length by omega] at hs'
        rwa [← hs']
      · simp only [List.getElem?_set_ne hjn] at hs'
        exact im j s (by omega) hs'
    · simp only [List.getElem?_set_ne (show n ≠ j by omega)]
      exact om j (by omega)

theorem joined_of {used : Nat} {sys : System} (h : ∀ j s, j < used → sys.engines[j]? = some s → s.idle = true) :
    sys.joined used = true := by
  refine List.all_eq_true.mpr fun s hs => ?_
  obtain ⟨j, hj, rfl⟩ := List.mem_iff_getElem.mp hs
  simp only [List.length_take] at hj
  exact h j _ (by omega) (by simp [show j < sys.engines.length by omega])

/-- There are orders in which a job ends. -/
theorem runJob_ends {job : Job} {sys : System} {t : Tables} {rk : Vector Word 32} (h1 : 1 ≤ job.workers)
    (hr : JobReady job sys t rk) : ∃ first last out, runJob job first last sys = some out := by
  have hlen : (sys.startWorkers job).engines.length = sys.engines.length := by simp [System.startWorkers]
  obtain ⟨first, joined, ha, lj, ij, _⟩ := along_all job.workers (sys := sys.startWorkers job) (by rw [hlen]; exact hr.1) (by
    intro j s hj hs
    have hjl : j < sys.engines.length := Nat.lt_of_lt_of_le hj hr.1
    have hsj : sys.engines[j]? = some sys.engines[j] := List.getElem?_eq_getElem hjl
    rw [startWorkers_engine hj hsj] at hs
    injection hs with hs
    obtain ⟨hf, _, _⟩ := hr.2 j _ hj hsj
    obtain ⟨u, rs, su, fu, _⟩ := serve_worker job hj hf
    obtain ⟨m, hm⟩ := su.run
    exact ⟨m, u, hs ▸ hm, fu.idle_eq⟩)
  have hal : (sys.startWorkers job).along first = some joined := by unfold System.along; rw [ha]
  have hj := joined_of ij
  obtain ⟨u, hu, fu, rfl, rfl, _⟩ := worker_at_join hr hal hj (w := 0) h1
  obtain ⟨v, rs, sv, fv, ov⟩ := serve_remainder job fu
  obtain ⟨m, hm⟩ := sv.run
  let rest : System := { engines := joined.engines.modify 0 fun s => s.give (remainderScript s.engineBase job.direction job.blocks) }
  have hg : rest.engines[0]? = some (u.give (remainderScript u.engineBase job.direction job.blocks)) := by
    simp [rest, hu]
  have hl := runAlong_replicate hg hm
  have he : ({ engines := rest.engines.set 0 v } : System).joined job.workers = true := joined_of fun j s hjw hs => by
    by_cases h0 : 0 = j
    · subst h0
      have : 0 < rest.engines.length := (List.getElem?_eq_some_iff.mp hg).1
      simp [this] at hs
      rw [← hs]; exact fv.idle_eq
    · simp only [List.getElem?_set_ne h0] at hs
      rw [show rest.engines[j]? = joined.engines[j]? from joined_modify_other (Nat.pos_of_ne_zero (Ne.symm h0))] at hs
      exact ij j s hjw hs
  have hsr : joined.startRemainder job = some rest := by unfold System.startRemainder; rw [if_pos hj]
  have hla : rest.along (List.replicate m 0) = some { engines := rest.engines.set 0 v } := by unfold System.along; rw [hl]
  have h0 : ({ engines := rest.engines.set 0 v } : System).engines[0]? = some v := by
    have : 0 < rest.engines.length := (List.getElem?_eq_some_iff.mp hg).1
    simp [this]
  have hsl : ∀ out, storeLast job joined { engines := rest.engines.set 0 v } out =
      some (patch (job.blocks.map (blockThrough job.direction u.engine.tables u.engine.rk))
        (8 * totalBatches job.blocks.length) job.blocks.length out) := fun out => by
    unfold storeLast
    simp only [hu, h0]
    rw [since_served (s := u) sv rfl]
    exact ov out
  refine ⟨first, List.replicate m 0, patch (job.blocks.map (blockThrough job.direction u.engine.tables u.engine.rk))
    (8 * totalBatches job.blocks.length) job.blocks.length
    (patch (job.blocks.map (blockThrough job.direction u.engine.tables u.engine.rk)) 0
      (8 * totalBatches job.blocks.length) (List.replicate job.blocks.length 0)), ?_⟩
  unfold runJob
  simp only [hal, hsr, hla, he, if_true, Option.bind_eq_bind, Option.bind_some,
    storeWorkers_eq hr hal hj _ (Nat.le_refl _), start_all _ h1, hsl]

end Sys2Proof.Machine
end

