-- ==== Sys2Proof/Laws/PerInstr.lean ====
section
/-! SUPPORT. The family EncodingFields: the fields of each command's word, as the bit diagram of R91 and the opcode map of R92 have
them, one lemma for each constructor. -/

namespace Sys2Proof.Laws.EncodingFields

/-- OP as R92 gives it. -/
def opcode : Instr → Nat
  | .gentab => 1
  | .derive _ => 2
  | .encb _ => 3
  | .decb _ => 4

/-- LEN as R93 gives it. -/
def length : Instr → Nat
  | .gentab => 0
  | .derive len => len.toNat
  | .encb len => len.toNat
  | .decb len => len.toNat

/-- OP, RSV0, LEN and RSV1 of the command's word (R91–R97). -/
def Statement (i : Instr) : Prop :=
  (encode i).toNat % 16 = opcode i ∧ (encode i).toNat / 16 % 16 = 0 ∧ (encode i).toNat / 256 % 256 = length i ∧
    (encode i).toNat / 65536 = 0

theorem gentab : Statement .gentab := by
  unfold Statement
  decide

theorem derive (len : Byte) : Statement (.derive len) := by
  have h := commandWord_toNat 2 len
  have hl := len.isLt
  simp only [Statement, encode, opcode, length, h, BitVec.reduceToNat]
  omega

theorem encb (len : Byte) : Statement (.encb len) := by
  have h := commandWord_toNat 3 len
  have hl := len.isLt
  simp only [Statement, encode, opcode, length, h, BitVec.reduceToNat]
  omega

theorem decb (len : Byte) : Statement (.decb len) := by
  have h := commandWord_toNat 4 len
  have hl := len.isLt
  simp only [Statement, encode, opcode, length, h, BitVec.reduceToNat]
  omega

end Sys2Proof.Laws.EncodingFields
end

