-- ==== Sys2Proof/Tests/Slice0.lean ====
section
/-! SUPPORT. Tests with values from the spec's own tables and vectors, the WellFormed smoke test, and for every obligation with
hypotheses a state and operands that meet them. -/

open Sys2Proof Sys2Proof.Machine Sys2Proof.Claims

namespace Sys2Proof.Tests

/-! ### States -/

/-- After reset, with the given valid flags: "reset", "T" and "TK" of vector V15. -/
def withFlags (tables keys : Bool) : State :=
  { State.reset with
    engine := { Engine.reset with status := { Status.reset with tablesValid := tables, keysValid := keys } } }

/-- Tables generated and the known-answer key derived. -/
def ready : State :=
  { State.reset with
    engine := { Engine.reset with
      status := { Status.reset with tablesValid := true, keysValid := true }
      masterKey := knownKey
      tables := gentabTables
      rk := keySchedule knownKey } }

/-- The command i accepted on `ready`, with the given inputs to come and two host turns to wait. -/
def running (i : Instr) (inputs : List Input) : State :=
  { ready with
    engine := { ready.engine with cmd := encode i, status := { ready.engine.status with busy := true }, latch := some i }
    delay := 2
    inputs := inputs }

/-- The given state with inputs to come. -/
def asked (inputs : List Input) (s : State) : State := { s with inputs := inputs }

/-- The STATUS word after a write of w to CMD. -/
def statusAfter (w : Word) (s : State) : Option Word :=
  match hostWrite 0 w s with
  | .next t => some t.engine.status.word
  | .fault _ => none
  | .refused _ => none

/-- The first response after an access at a window offset. -/
def answerTo (off width : Nat) (k : AccessKind) (s : State) : Option BusResponse :=
  match hostAccess ⟨s.engineBase + off, width, k⟩ s with
  | .next t => t.responses.head?
  | .fault _ => none
  | .refused _ => none

/-! ### WellFormed -/

theorem test_wellFormed_accepts_R93 :
    Instr.gentab.wellFormed = true ∧ (Instr.derive 16).wellFormed = true ∧ (Instr.encb 16).wellFormed = true ∧
      (Instr.encb 112).wellFormed = true ∧ (Instr.encb 128).wellFormed = true ∧ (Instr.decb 48).wellFormed = true := by
  decide

theorem test_wellFormed_refuses_key_lengths : (Instr.derive 15).wellFormed = false ∧ (Instr.derive 17).wellFormed = false := by
  decide

theorem test_wellFormed_refuses_encb_lengths :
    (Instr.encb 0).wellFormed = false ∧ (Instr.encb 24).wellFormed = false ∧ (Instr.encb 144).wellFormed = false := by
  decide

theorem test_wellFormed_refuses_decb_lengths :
    (Instr.decb 0).wellFormed = false ∧ (Instr.decb 130).wellFormed = false ∧ (Instr.decb 255).wellFormed = false := by
  decide

/-! ### Decode: words written out from R94–R98 -/

theorem test_decode_gentab : decode 0b00000000000000000000000000000001 = .ok .gentab := by decide
theorem test_decode_derive : decode 0b00000000000000000001000000000010 = .ok (.derive 16) := by decide
theorem test_decode_encb : decode 0b00000000000000000111000000000011 = .ok (.encb 112) := by decide
theorem test_decode_decb : decode 0b00000000000000000010000000000100 = .ok (.decb 32) := by decide
theorem test_decode_encb_any_length : decode 0x0000FF03 = .ok (.encb 255) := by decide

/-- The illegal words of vector V15. -/
theorem test_decode_refuses :
    decode 0x00000000 = .error .reservedOpcode ∧ decode 0x0000000F = .error .reservedOpcode ∧
      decode 0x00000101 = .error .gentabWithLength ∧ decode 0x00000011 = .error .reservedField ∧
      decode 0x00010001 = .error .reservedField ∧ decode 0x80001003 = .error .reservedField := by
  decide

theorem test_decodeTableWord :
    decodeTableWord 32 0x00001002 = some (.derive 16) ∧ decodeTableWord 8 0x01 = some .gentab ∧
      decodeTableWord 32 0x5 = none := by
  decide

/-! ### Primitives and ROMs -/

/-- The worked step of R148: the input of tau, tau, Lp. -/
theorem test_key_step_R148 :
    (0xDF01FEBF ^^^ 0x99A12B0F ^^^ 0xC42410CC ^^^ ck 0 : Word) = 0x8283CB69 ∧ tau 0x8283CB69 = 0x8AD24122 ∧
      diffuseKey 0x8AD24122 = 0x53B37958 := by
  decide +kernel

/-- K[0..3] and RK[0] of R148. -/
theorem test_key_start_R148 :
    keyStart knownKey = ⟨0xA292FFA1, 0xDF01FEBF, 0x99A12B0F, 0xC42410CC⟩ ∧ (keyWindow knownKey 1).k3 = 0xF12186F9 := by
  decide +kernel

/-- The corners of R142's table. -/
theorem test_ck_R142 : ck 0 = 0x00070E15 ∧ ck 18 = 0xF8FF060D ∧ ck 31 = 0x646B7279 := by decide

/-- R129: T0 and its rotations at 0x01, and T0 at 0xFF. -/
theorem test_table_entries_R129 :
    tableEntry 0x01 = 0xD0924242 ∧ rotl (tableEntry 0x01) 8 = 0x924242D0 ∧ rotl (tableEntry 0x01) 24 = 0x42D09242 ∧
      tableEntry 0xFF = 0x68492121 := by
  decide +kernel

/-- Vector V12: the four lookups of the first round, and the new word. -/
theorem test_first_round_V12 :
    tVec gentabTables 0xF002C39E = 0x26D99622 ∧ (0x01234567 ^^^ 0x26D99622 : Word) = 0x27FAD345 := by
  rw [tVec, lookup_gentab_t0, lookup_gentab_t3, lookup_gentab_t2, lookup_gentab_t1]
  decide +kernel

/-- The state after round 0 of vector V12, from a T_vec value. -/
theorem test_cryptRound_shifts_words :
    (cryptRound ready.engine.tables knownKey 0xF12186F9).toList.take 3 = [0x89ABCDEF, 0xFEDCBA98, 0x76543210] := by
  rfl

/-! ### Issue: vector V15 -/

theorem test_issue_after_reset_V15 :
    statusAfter 0x00000000 State.reset = some 0x110 ∧ statusAfter 0x00000001 State.reset = some 0x001 ∧
      statusAfter 0x00000101 State.reset = some 0x110 ∧ statusAfter 0x00000F02 State.reset = some 0x220 ∧
      statusAfter 0x00000003 State.reset = some 0x220 ∧ statusAfter 0x00001004 State.reset = some 0x220 := by
  decide +kernel

theorem test_issue_with_tables_V15 :
    statusAfter 0x00010001 (withFlags true false) = some 0x112 ∧ statusAfter 0x00001002 (withFlags true false) = some 0x003 ∧
      statusAfter 0x00001102 (withFlags true false) = some 0x432 ∧
      statusAfter 0x00001003 (withFlags true false) = some 0x1052 ∧
      statusAfter 0x00001803 (withFlags true false) = some 0x842 ∧
      statusAfter 0x00008004 (withFlags true false) = some 0x1052 := by
  decide +kernel

theorem test_issue_with_keys_V15 :
    statusAfter 0x00000001 (withFlags true true) = some 0x007 ∧ statusAfter 0x00000002 (withFlags true true) = some 0x436 ∧
      statusAfter 0x00008003 (withFlags true true) = some 0x007 ∧
      statusAfter 0x00009003 (withFlags true true) = some 0x846 ∧
      statusAfter 0x00001004 (withFlags true true) = some 0x007 ∧
      statusAfter 0x80001003 (withFlags true true) = some 0x116 := by
  decide +kernel

/-- A write while BUSY = 1 changes STICKY[6] only (V15's last lines). -/
theorem test_issue_while_busy_V15 : statusAfter 0x00000000 (running .gentab []) = some 0x2007 := by rfl

/-! ### The window: vector V18 -/

theorem test_access_admission_V18 :
    answerTo 0x0002 32 .read (withFlags true true) = some .busError ∧
      answerTo 0x0008 32 .read (withFlags true true) = some .busError ∧
      answerTo 0x0800 32 .read (withFlags true true) = some .busError ∧
      answerTo 0x0080 32 (.write 0) (withFlags true true) = some .busError ∧
      answerTo 0x0400 32 .read (withFlags true true) = some (.data 0x000000D6) ∧
      answerTo 0x0004 16 .read (withFlags true true) = some .busError ∧
      answerTo 0x0004 32 (.write 0x3F00) (withFlags true true) = some .done := by
  decide +kernel

/-- The sticky bits of program P3: s5 = 0x00001F12, and CLR 0x00003F00. -/
theorem test_status_P3 :
    (Status.word ⟨false, true, false, 1, 0b011111⟩) = 0x00001F12 ∧
      (Status.cleared 0x3F00 ⟨false, true, true, 0, 0b111111⟩).word = 0x00000006 := by
  decide +kernel

/-! ### Partial batches and the partition -/

/-- R166: an inactive lane writes 0, an active one its words in reverse. -/
theorem test_batchOutput_R166 :
    (batchOutput 1 { Engine.reset.lanes with x3 := Vector.replicate 8 7 })[0] = #v[7, 0, 0, 0] ∧
      (batchOutput 1 { Engine.reset.lanes with x3 := Vector.replicate 8 7 })[1] = #v[0, 0, 0, 0] := by
  decide +kernel

/-- Vector V17: 7 batches on 3 workers, and 10 on 4. -/
theorem test_partition_V17 :
    [0, 1, 2].map (fun w => (Partitioner.start 7 3 w, Partitioner.count 7 3 w)) = [(0, 3), (3, 2), (5, 2)] ∧
      [0, 1, 2, 3].map (fun w => (Partitioner.start 10 4 w, Partitioner.count 10 4 w)) = [(0, 3), (3, 3), (6, 2), (8, 2)] := by
  decide

/-! ### The invariant on the test states -/

theorem ready_coherent : Coherent ready where
  latch_iff_busy := rfl
  latch_wellFormed := fun i h => by cases h
  latch_tables := fun i h => by cases h
  latch_keys := fun len h => by rcases h with h | h <;> cases h
  cmd_latched := fun i h => by cases h
  busy_errcode := fun _ => rfl
  errcode_legal := Nat.zero_le 5
  keys_after_tables := fun _ => rfl
  tables_valid := fun _ => rfl
  keys_valid := fun _ => ⟨knownKey, rfl⟩
  base_aligned := rfl

theorem running_coherent (i : Instr) (inputs : List Input) (hi : i.wellFormed = true) : Coherent (running i inputs) where
  latch_iff_busy := rfl
  latch_wellFormed := fun j h => by injection h with h; subst h; exact hi
  latch_tables := fun _ _ _ => rfl
  latch_keys := fun _ _ => rfl
  cmd_latched := fun j h => by injection h with h; subst h; rfl
  busy_errcode := fun _ => rfl
  errcode_legal := Nat.zero_le 5
  keys_after_tables := fun _ => rfl
  tables_valid := fun _ => rfl
  keys_valid := fun _ => ⟨knownKey, rfl⟩
  base_aligned := rfl

/-! ### Witnesses: encoding and issue -/

theorem witness_EveryCommandHasOneWord :
    decode 0x00000001 = .ok .gentab ∧ decode 0x0000FF04 = .ok (.decb 255) ∧ decode 0x00000002 = .ok (.derive 0) := by
  decide

/-- Each clause of `illegalWord` at its ends, and words just outside it. -/
theorem witness_IllegalWordsRejected :
    (illegalWord 0x00000000 ∧ illegalWord 0x00000005 ∧ illegalWord 0x0000000F ∧ illegalWord 0x00000011 ∧
      illegalWord 0x000000F1 ∧ illegalWord 0x00010001 ∧ illegalWord 0x80001003 ∧ illegalWord 0x00000101) ∧
    (¬ illegalWord 0x00000001 ∧ ¬ illegalWord 0x0000FF04) ∧ State.reset.engine.status.busy = false := by
  unfold illegalWord wordOp wordLen
  refine ⟨⟨?_, ?_, ?_, ?_, ?_, ?_, ?_, ?_⟩, ⟨?_, ?_⟩, rfl⟩ <;> decide

/-- Every code of `CodeAtIssue`, and a busy state. -/
theorem witness_IssueFollowsTheOrderOfChecks :
    CodeAtIssue 0x00000000 (withFlags true true).engine.status 1 ∧
    CodeAtIssue 0x00000F02 (withFlags false false).engine.status 2 ∧
    CodeAtIssue 0x00001102 (withFlags true false).engine.status 3 ∧
    CodeAtIssue 0x00000003 (withFlags true false).engine.status 4 ∧
    CodeAtIssue 0x00009004 (withFlags true false).engine.status 4 ∧
    CodeAtIssue 0x00008003 (withFlags true false).engine.status 5 ∧
    CodeAtIssue 0x00000001 (withFlags false false).engine.status 0 ∧
    CodeAtIssue 0x00001002 (withFlags true false).engine.status 0 ∧
    CodeAtIssue 0x00001003 (withFlags true true).engine.status 0 ∧
    CodeAtIssue 0x00008004 (withFlags true true).engine.status 0 ∧
    (withFlags true true).engine.status.busy = false ∧ (running .gentab []).engine.status.busy = true := by
  refine ⟨?_, ?_, ?_, ?_, ?_, ?_, ?_, ?_, ?_, ?_, rfl, rfl⟩ <;>
    simp [CodeAtIssue, illegalWord, legalBatch, wordOp, wordLen, withFlags, Status.reset]

theorem witness_RejectedForms :
    (withFlags false false).engine.status.busy = false ∧ (withFlags false false).engine.status.tablesValid = false ∧
    (Instr.derive 16 ≠ .gentab) ∧
    (withFlags true false).engine.status.busy = false ∧ (withFlags true false).engine.status.tablesValid = true ∧
    (withFlags true false).engine.status.keysValid = false ∧ (15 : Byte) ≠ 16 ∧ (17 : Byte) ≠ 16 ∧
    (0 : Byte) = 0 ∧ (24 : Byte).toNat % 16 ≠ 0 ∧ (144 : Byte).toNat > 128 ∧
    legalBatch (16 : Byte).toNat ∧ legalBatch (128 : Byte).toNat := by
  unfold legalBatch
  decide +kernel

theorem witness_CommandDroppedWhileBusy : (running (.encb 16) []).engine.status.busy = true := rfl

/-- Accepted, rejected and dropped. -/
theorem witness_IssueFrame :
    (∃ t, exec .gentab State.reset = .next t) ∧ (∃ t, exec (.derive 15) ready = .next t) ∧
      (∃ t, exec (.decb 32) (running .gentab []) = .next t) :=
  ⟨⟨_, rfl⟩, ⟨_, rfl⟩, ⟨_, rfl⟩⟩

/-! ### Witnesses: the commands and the cipher -/

theorem witness_GentabRuns : State.reset.engine.status.busy = false ∧ ready.engine.status.busy = false := ⟨rfl, rfl⟩

theorem witness_DeriveRuns :
    (withFlags true false).engine.status.busy = false ∧ (withFlags true false).engine.status.tablesValid = true := ⟨rfl, rfl⟩

/-- For ENCB, DECB and the round trip: the shortest and the longest batch. -/
theorem witness_EncbRuns_DecbRuns_DecbUndoesEncb :
    ready.engine.status.busy = false ∧ ready.engine.status.tablesValid = true ∧ ready.engine.status.keysValid = true ∧
      legalBatch (16 : Byte).toNat ∧ legalBatch (128 : Byte).toNat ∧ (0 : Fin 8).val < (16 : Byte).toNat / 16 ∧
      (7 : Fin 8).val < (128 : Byte).toNat / 16 := by
  unfold legalBatch
  exact ⟨rfl, rfl, rfl, by decide, by decide, by decide, by decide⟩

/-- A completion of each command, and a register it does not write. -/
theorem witness_CompletionFrame :
    (∃ t, complete (running .gentab []) = .next t) ∧ (∃ t, complete (running (.derive 16) []) = .next t) ∧
    (∃ t, complete (running (.encb 16) []) = .next t) ∧ (∃ t, complete (running (.decb 16) []) = .next t) ∧
    Machine.Instr.writesReg Instr.gentab (.rk 0) = false ∧ Machine.Instr.writesReg (Instr.derive 16) (.bout 0 0) = false ∧
    Machine.Instr.writesReg (Instr.encb 16) (.t0 0) = false ∧ Machine.Instr.writesReg (Instr.decb 16) (.bin 7 3) = false ∧
    (running (.derive 16) []).engine.latch ≠ some .gentab ∧ (∀ len, (running .gentab []).engine.latch ≠ some (.derive len)) :=
  ⟨⟨_, rfl⟩, ⟨_, rfl⟩, ⟨_, rfl⟩, ⟨_, rfl⟩, rfl, rfl, rfl, rfl, (fun h => by cases h), (fun _ h => by cases h)⟩

theorem witness_RotlMovesBits_TablesHoldByteContributions : 0 < 32 ∧ 31 < 32 := by decide

theorem witness_EncbInSequenceNotation : (0 : Fin 8).val < 1 ∧ (7 : Fin 8).val < 8 := by decide

/-- The same block in lane 0 of a batch of 1 and in lane 7 of a batch of 8. -/
theorem witness_LanesAreIndependent :
    (0 : Fin 8).val < 1 ∧ (7 : Fin 8).val < 8 ∧ ready.engine.bin[(0 : Fin 8)] = ready.engine.bin[(7 : Fin 8)] :=
  ⟨by decide, by decide, rfl⟩

/-! ### Witnesses: the window -/

theorem witness_RegisterMap : regAt 0x0000 = some .cmd ∧ regAt 0x1FFC = some (.t3 255) ∧ regAt 0x00FC = some (.rk 31) := by
  decide +kernel

/-- Admitted at the window's ends; refused for width, alignment, reserved offset and direction. -/
theorem witness_AdmissionOfAccesses :
    Reg.cmd.offset = 0x0000 ∧ (Reg.t3 255).offset = 0x1FFC ∧ Reg.cmd.writable = true ∧ (Reg.t3 255).writable = false ∧
      admittedReg 0x0000 32 (.write 0) = some .cmd ∧ admittedReg 0x1FFC 32 .read = some (.t3 255) ∧ admittedReg 0x1FFC 32 (.write 0) = none ∧
      admittedReg 0x0000 16 .read = none ∧ admittedReg 0x0002 32 .read = none ∧ admittedReg 0x0008 32 .read = none := by
  decide +kernel

/-- Both ends of each reserved range. -/
theorem witness_ReservedOffsetsAreBusErrors :
    regAt 0x0008 = none ∧ regAt 0x000C = none ∧ regAt 0x0020 = none ∧ regAt 0x007C = none ∧ regAt 0x0200 = none ∧
      regAt 0x03FC = none ∧ regAt 0x0800 = none ∧ regAt 0x0FFC = none := by
  decide +kernel

theorem witness_OutsideTheWindow : 0x1FFF < 0x2000 ∧ State.reset.engineBase + 0x2000 ≤ 0x2000 := by decide

/-- Readable while idle, and while another command runs. -/
theorem witness_ReadsReturnRegisters :
    ready.engine.status.keysValid = true ∧ ready.engine.status.tablesValid = true ∧ ready.engine.status.busy = false ∧
      (running .gentab []).engine.status.busy = true ∧ (∀ len, (running .gentab []).engine.latch ≠ some (.derive len)) ∧
      (∀ len, (running (.derive 16) []).engine.latch ≠ some (.encb len) ∧
        (running (.derive 16) []).engine.latch ≠ some (.decb len)) ∧
      (running (.derive 16) []).engine.latch ≠ some .gentab :=
  ⟨rfl, rfl, rfl, rfl, (fun _ h => by cases h), (fun _ => ⟨(fun h => by cases h), (fun h => by cases h)⟩), fun h => by cases h⟩

theorem witness_UnspecifiedReadsAreFree :
    State.reset.engine.status.keysValid = false ∧ State.reset.engine.status.tablesValid = false ∧
      ((running (.derive 16) []).engine.status.busy = true ∧ (running (.derive 16) []).engine.latch = some (.derive 16)) ∧
      (running .gentab []).engine.latch = some .gentab ∧ (running (.encb 16) []).engine.latch = some (.encb 16) ∧
      (running (.decb 16) []).engine.latch = some (.decb 16) :=
  ⟨rfl, rfl, ⟨rfl, rfl⟩, rfl, rfl, rfl⟩

theorem witness_WriteEffects : ready.engine.status.busy = false := rfl

theorem witness_BusyWritesAreDropped :
    (running (.decb 16) []).engine.status.busy = true ∧ Coherent (running (.decb 16) []) :=
  ⟨rfl, running_coherent _ _ (by decide)⟩

theorem witness_LoadKeyScript :
    ready.engine.status.busy = false ∧ (asked (hostLdKey 0 0x0123456789ABCDEFFEDCBA9876543210 ++ [.poll]) ready).inputs =
      hostLdKey ready.engineBase 0x0123456789ABCDEFFEDCBA9876543210 ++ [.poll] := ⟨rfl, rfl⟩

theorem witness_LoadBlockScript :
    ready.engine.status.busy = false ∧ (asked (hostLdBlk 0 7 0x0123456789ABCDEFFEDCBA9876543210 ++ []) ready).inputs =
      hostLdBlk ready.engineBase (7 : Fin 8) 0x0123456789ABCDEFFEDCBA9876543210 ++ [] := ⟨rfl, rfl⟩

theorem witness_ReadBlockScript :
    ready.engine.status.busy = false ∧ (asked (hostRdBlk 0 7 ++ [.poll]) ready).inputs =
      hostRdBlk ready.engineBase (7 : Fin 8) ++ [.poll] := ⟨rfl, rfl⟩

/-- RDBLK of vector V1's words gives the value in wire order; a read that gave no data gives none. -/
theorem test_rdBlkValue_R101 :
    rdBlkValue [.data 0x681EDF34, .data 0xD206965E, .data 0x86B3E94F, .data 0x536E4246] =
        some 0x681EDF34D206965E86B3E94F536E4246 ∧
      rdBlkValue [.data 1, .data 2, .busError, .data 4] = none := by
  decide +kernel

/-- POLL ends at the first STATUS word with bit 0 = 0 (R101). -/
theorem test_pollAnswer_R101 :
    pollAnswer [.data 0x007, .data 0x007, .data 0x006, .data 0x001] = some (.data 0x006, [.data 0x001]) ∧
      pollAnswer [.data 0x007] = none := by
  decide +kernel

/-- Vector V1's key in wire order gives R68's words. -/
theorem test_wireWord_R68 :
    [0, 1, 2, 3].map (wireWord 0x0123456789ABCDEFFEDCBA9876543210) = [0x01234567, 0x89ABCDEF, 0xFEDCBA98, 0x76543210] := by
  decide +kernel

/-- The same key as wire bytes (R14, R68). -/
theorem test_blockOfBytes_R68 :
    blockOfBytes #v[0x01, 0x23, 0x45, 0x67, 0x89, 0xAB, 0xCD, 0xEF, 0xFE, 0xDC, 0xBA, 0x98, 0x76, 0x54, 0x32, 0x10] = knownKey := by
  decide +kernel

/-! ### Witnesses: steps -/

/-- BUSY rises at an accepted write to CMD, and falls at completion and at reset. -/
theorem witness_BusyChangesOnly :
    (∃ t, step (State.reset.withFetchWord 32 1) = .next t ∧ t.engine.status.busy = true) ∧
    (∃ t, step (running .gentab []) = .next t ∧ t.engine.status.busy = false) ∧
    (∃ t, step (running .gentab [.reset]) = .next t ∧ t.engine.status.busy = false) :=
  ⟨⟨_, rfl, rfl⟩, ⟨_, rfl, rfl⟩, ⟨_, rfl, rfl⟩⟩

/-- ERRCODE changes at a rejection. -/
theorem witness_ErrcodeChangesOnly :
    ∃ t, step (State.reset.withFetchWord 32 0x1003) = .next t ∧ t.engine.status.errcode ≠ State.reset.engine.status.errcode :=
  ⟨_, rfl, by decide⟩

/-- `ready` with every sticky bit set. -/
def stickySet : State := { ready with engine := { ready.engine with status := { ready.engine.status with sticky := 0b111111 } } }

/-- STICKY[2] is cleared by a write to STATUS, and STICKY[1] and STICKY[6] by reset. -/
theorem witness_StickyClearedOnly :
    (∃ t, step (asked [hostClr 0 0x0200] stickySet) = .next t ∧ stickySet.engine.status.word.getLsbD (7 + 2) = true ∧
      t.engine.status.word.getLsbD (7 + 2) = false ∧ t.engine.status.word.getLsbD (7 + 3) = true) ∧
    (∃ t, step (asked [.reset] stickySet) = .next t ∧ stickySet.engine.status.word.getLsbD (7 + 1) = true ∧
      t.engine.status.word.getLsbD (7 + 1) = false ∧ stickySet.engine.status.word.getLsbD (7 + 6) = true ∧
      t.engine.status.word.getLsbD (7 + 6) = false) :=
  ⟨⟨_, rfl, rfl, rfl, rfl⟩, ⟨_, rfl, rfl, rfl, rfl, rfl⟩⟩

/-- The first GENTAB after reset, running. -/
def firstGentab : State :=
  { State.reset with engine := { Engine.reset with status := { Status.reset with busy := true }, latch := some .gentab } }

/-- The first DERIVE, running, with MK = 0. -/
def firstDerive : State :=
  { State.reset with
    engine := { Engine.reset with
      status := { Status.reset with busy := true, tablesValid := true }, latch := some (.derive 16), tables := gentabTables } }

/-- Each valid flag set at the completion of its command, and cleared by reset. -/
theorem witness_ValidFlagsChangeOnly :
    (∃ t, step firstGentab = .next t ∧ firstGentab.engine.status.tablesValid = false ∧ t.engine.status.tablesValid = true) ∧
    (∃ t, step firstDerive = .next t ∧ firstDerive.engine.status.keysValid = false ∧ t.engine.status.keysValid = true) ∧
    (∃ t, step (asked [.reset] ready) = .next t ∧ t.engine.status.tablesValid = false ∧ t.engine.status.keysValid = false) :=
  ⟨⟨_, rfl, rfl, rfl⟩, ⟨_, rfl, rfl, rfl⟩, ⟨_, rfl, rfl, rfl⟩⟩

/-- A step that is no reset and changes MK, and one that changes BIN. -/
theorem witness_StoresChangeOnly_inputs :
    (∃ t, step (asked [hostWr 0 0x0010 5] State.reset) = .next t ∧ t.engine.masterKey ≠ State.reset.engine.masterKey) ∧
    (∃ t, step (asked [hostWr 0 0x017C 5] State.reset) = .next t ∧ t.engine.bin ≠ State.reset.engine.bin) ∧
    ¬ resetNext (asked [hostWr 0 0x0010 5] State.reset) ∧ ¬ resetNext (asked [hostWr 0 0x017C 5] State.reset) := by
  refine ⟨⟨_, rfl, by decide +kernel⟩, ⟨_, rfl, by decide +kernel⟩, ?_, ?_⟩ <;> rintro ⟨rest, h⟩ <;> cases h

/-- A step that is no reset and changes RK. RK[0] becomes 0x45603B23 under the zero key (R143). -/
theorem witness_StoresChangeOnly_rk :
    ∃ t, step firstDerive = .next t ∧ t.engine.rk[(0 : Fin 32)] = 0x45603B23 ∧ firstDerive.engine.rk[(0 : Fin 32)] = 0 ∧
      ¬ resetNext firstDerive := by
  refine ⟨_, rfl, ?_, rfl, fun ⟨rest, h⟩ => by cases h⟩
  show (keySchedule (Vector.replicate 4 0))[(0 : Fin 32)] = _
  rw [keySchedule_eq_sequence]
  decide +kernel

/-- A step that is no reset and changes the tables. -/
theorem witness_StoresChangeOnly_tables :
    ∃ t, step firstGentab = .next t ∧ lookup t.engine.tables.t0 0 = 0x8ED55B5B ∧ lookup firstGentab.engine.tables.t0 0 = 0 ∧
      ¬ resetNext firstGentab := by
  refine ⟨_, rfl, ?_, rfl, fun ⟨rest, h⟩ => by cases h⟩
  show lookup gentabTables.t0 0 = _
  rw [lookup_gentab_t0]
  decide +kernel

/-- An ENCB of one block running, with an earlier result in BOUT. -/
def staleOutput : State :=
  { running (.encb 16) [] with
    engine := { (running (.encb 16) []).engine with bout := Vector.replicate 8 (Vector.replicate 4 9) } }

/-- A step that is no reset and changes BOUT: an inactive lane takes 0. -/
theorem witness_StoresChangeOnly_bout :
    ∃ t, step staleOutput = .next t ∧ t.engine.bout[(7 : Fin 8)] = Vector.replicate 4 0 ∧
      staleOutput.engine.bout[(7 : Fin 8)] = Vector.replicate 4 9 ∧ ¬ resetNext staleOutput := by
  refine ⟨completeEncb 16 staleOutput, rfl, ?_, rfl, fun ⟨rest, h⟩ => by cases h⟩
  rw [completeEncb, completeBatch_eq]
  exact runBatch_bout _ _ _ _

theorem witness_StepRunsTheDecodedCommand :
    (asked [hostWr 0 0 0x1003] ready).turn = .outside (.access ⟨ready.engineBase, 32, .write 0x1003⟩) [] ∧
      decode 0x1003 = .ok (.encb 16) := ⟨rfl, by decide⟩

/-- Completion with no input left, and with the latency passed. -/
theorem witness_CompletionStep :
    (running .gentab []).turn = .completion ∧ { running .gentab [.poll] with delay := 0 }.turn = .completion ∧
      (running .gentab [.poll]).engine.status.busy = true := ⟨rfl, rfl, rfl⟩

theorem witness_PollStep : (running .gentab [.poll]).turn = .outside .poll [] ∧ (asked [.poll] ready).turn = .outside .poll [] :=
  ⟨rfl, rfl⟩

theorem witness_RunningCommandEnds :
    Coherent (running (.encb 128) [.poll]) ∧ (running (.encb 128) [.poll]).engine.status.busy = true :=
  ⟨running_coherent _ _ (by decide), rfl⟩

/-- One dropped write while the command runs. -/
theorem witness_RunningCommandKeepsTheEngine :
    let s := running (.encb 128) [hostWr 0 0x0010 5, .poll]
    s.engine.status.busy = true ∧ (∀ k, k ≤ 1 → ∃ u, runSteps k s = .next u ∧ u.engine.status.busy = true) ∧
      ∃ t, runSteps 1 s = .next t ∧ t.engine.status.sticky = 0b100000 := by
  refine ⟨rfl, fun k hk => ?_, _, rfl, rfl⟩
  interval_cases k
  · exact ⟨_, rfl, rfl⟩
  · exact ⟨_, rfl, rfl⟩

/-- Each command from its acceptance to its completion, with nothing asked meanwhile. -/
theorem witness_ResultIsOfTheValuesAtAcceptance (i : Instr) (hi : i = .gentab ∨ i = .derive 16 ∨ i = .encb 16 ∨ i = .decb 128) :
    ∃ t v, exec i ready = .next t ∧ (∀ k, k ≤ 0 → ∃ x, runSteps k t = .next x ∧ x.engine.status.busy = true) ∧
      runSteps 0 t = .next t ∧ t.turn = .completion ∧ step t = .next v := by
  rcases hi with rfl | rfl | rfl | rfl
  all_goals exact ⟨_, _, rfl, fun k hk => by obtain rfl := Nat.le_zero.mp hk; exact ⟨_, rfl, rfl⟩, rfl, rfl, rfl⟩

theorem witness_EveryStepKeepsTheInvariant :
    Coherent ready ∧ (∃ t, step ready = .next t) ∧ Coherent (running (.decb 16) []) ∧
      ∃ t, step (running (.decb 16) []) = .next t :=
  ⟨ready_coherent, ⟨_, rfl⟩, running_coherent _ _ (by decide), ⟨_, rfl⟩⟩

theorem witness_ValidStoresHoldTheirValues :
    Coherent ready ∧ ready.engine.status.busy = false ∧ ready.engine.status.tablesValid = true ∧
      ready.engine.status.keysValid = true := ⟨ready_coherent, rfl, rfl, rfl⟩

theorem witness_TheMachineNeverStops : Coherent ready := ready_coherent

theorem witness_ResetEvent : (running (.encb 16) [.reset, .poll]).turn = .outside .reset [.poll] := rfl

theorem witness_AfterResetOnlyGentab :
    resetNext (asked [.reset] ready) ∧ (∃ t, step (asked [.reset] ready) = .next t) ∧ Instr.decb 16 ≠ .gentab :=
  ⟨⟨[], rfl⟩, ⟨_, rfl⟩, by decide⟩

/-- `withFetchWord` on the state after reset: the next step issues the word (V15). -/
theorem test_withFetchWord_runs_the_word :
    ∃ t, step (State.reset.withFetchWord 32 0x00001003) = .next t ∧ t.engine.cmd = 0x00001003 ∧
      t.engine.status.word = 0x00000220 ∧ t.inputs = [] := ⟨_, rfl, rfl, by decide +kernel, rfl⟩

/-! ### Witnesses: several engines -/

theorem witness_PartitionCoversTheBatches : 1 ≤ 1 ∧ 0 < 1 ∧ 1 ≤ 3 ∧ 1 + 1 < 3 ∧ 2 < 3 := by decide

/-- Blocks 8q .. of the output are replaced, the others stay (R229). -/
theorem test_putBlocks_R229 : Partitioner.putBlocks 2 [7, 8] [1, 2, 3, 4, 5] = [1, 2, 7, 8, 5] := by decide +kernel

/-- Vector V1's key as bytes is one block in wire order, and back (R14, R226). -/
theorem test_blocksOfBytes_R14 :
    Partitioner.blocksOfBytes
        [0x01, 0x23, 0x45, 0x67, 0x89, 0xAB, 0xCD, 0xEF, 0xFE, 0xDC, 0xBA, 0x98, 0x76, 0x54, 0x32, 0x10] =
        [0x0123456789ABCDEFFEDCBA9876543210] ∧
      Partitioner.bytesOfBlock 0x0123456789ABCDEFFEDCBA9876543210 =
        [0x01, 0x23, 0x45, 0x67, 0x89, 0xAB, 0xCD, 0xEF, 0xFE, 0xDC, 0xBA, 0x98, 0x76, 0x54, 0x32, 0x10] := by
  decide +kernel

/-- `ready` in a window of its own. -/
def readyAt (base : Nat) : State := { ready with engineBase := base }

/-- An engine the host will not use need not be ready (R232). -/
theorem test_ready_of_used_engines_R232 :
    (System.mk [ready, readyAt 0x2000, State.reset]).ready 2 = true ∧
      (System.mk [ready, readyAt 0x2000, State.reset]).ready 3 = false :=
  ⟨rfl, rfl⟩

theorem prepared_readyAt (base : Nat) (h : base % Config.windowSize = 0) : Prepared knownKey (readyAt base) :=
  ⟨{ ready_coherent with base_aligned := h }, rfl, rfl, rfl⟩

/-- A length that is no multiple of 16, an engine without valid flags, and an engine with another MK. -/
theorem witness_DriverChecksFirst :
    (List.replicate 15 (0 : Byte)).length % 16 ≠ 0 ∧ (List.replicate 32 (0 : Byte)).length % 16 = 0 ∧
      Partitioner.workerCount 2 none = 2 ∧ State.reset ∈ (System.mk [ready, State.reset]).engines.take 2 ∧
      State.reset.engine.status.tablesValid = false ∧ ready ∈ (System.mk [ready, State.reset]).engines.take 2 ∧
      State.reset.engine.masterKey ≠ ready.engine.masterKey ∧ 1 ≤ (System.mk [ready]).engines.length := by
  refine ⟨by rw [List.length_replicate]; decide, by rw [List.length_replicate], by decide, .tail _ (.head _), rfl, .head _,
    by decide +kernel, by decide⟩

/-- Two engines in windows of their own, one worker and two, an empty buffer and one of nine blocks. -/
theorem witness_DriverOutputIsBlockwise :
    let sys := System.mk [readyAt 0, readyAt 0x2000]
    (List.replicate 0 (0 : Byte)).length % 16 = 0 ∧ (List.replicate 144 (0 : Byte)).length % 16 = 0 ∧ sys.engines ≠ [] ∧
      Partitioner.workerCount sys.engines.length (some 1) = 1 ∧ Partitioner.workerCount sys.engines.length none = 2 ∧
      ∀ s, s ∈ sys.engines.take 2 →
        Prepared knownKey s ∧ s.engine.status.tablesValid = true ∧ s.engine.status.keysValid = true := by
  refine ⟨rfl, by rw [List.length_replicate], by simp, by decide, by decide, fun s hs => ?_⟩
  simp only [List.take_succ_cons, List.take_zero, List.mem_cons, List.not_mem_nil, or_false] at hs
  rcases hs with rfl | rfl
  · exact ⟨prepared_readyAt 0 rfl, rfl, rfl⟩
  · exact ⟨prepared_readyAt 0x2000 rfl, rfl, rfl⟩

/-- Two engines, one to step after the other. -/
theorem witness_EnginesShareNothing :
    (∃ sys', (System.mk [ready, State.reset]).stepAt 0 = .next sys') ∧
      (∃ sys', (System.mk [ready, State.reset]).runAlong [0, 1] = .next sys') ∧ 1 ≠ 0 :=
  ⟨⟨_, rfl⟩, ⟨_, rfl⟩, by decide⟩

end Sys2Proof.Tests
end

section
/-! PROOFS. The statements of 00_scope.md: rotl (R11) and the known-answer vector (R3). -/

namespace Sys2Proof.Machine

/-! ### Rotation -/

/-- R11 defines rotl for n below 32, and there it is the library's rotation. -/
theorem rotl_eq_rotateLeft (x : Word) {n : Nat} (hn : n < 32) : rotl x n = x.rotateLeft n := by
  rw [BitVec.rotateLeft_def, Nat.mod_eq_of_lt hn, rotl]

/-- Bit j of a rotation: the low n bits are the top ones of x, the others come from n places below. -/
theorem getLsbD_rotl (x : Word) {n j : Nat} (hn : n < 32) (hj : j < 32) :
    (rotl x n).getLsbD j = if j < n then x.getLsbD (32 - n + j) else x.getLsbD (j - n) := by
  rw [rotl_eq_rotateLeft x hn, BitVec.getLsbD_rotateLeft, Nat.mod_eq_of_lt hn, Bool.cond_eq_ite]
  simp [hj]

/-- Settles O16, by whether bit i + n stays in the word or wraps around to bit i + n - 32. -/
theorem rotlMovesBits : Obligations.RotlMovesBits := by
  intro x n i hn hi
  rw [getLsbD_rotl x hn (Nat.mod_lt _ (by decide))]
  by_cases hwrap : i + n < 32
  · rw [Nat.mod_eq_of_lt hwrap, if_neg (by omega), Nat.add_sub_cancel]
  · have hmod : (i + n) % 32 = i + n - 32 := by omega
    rw [hmod, if_pos (by omega)]
    congr 1
    omega

/-! ### The known-answer vector -/

open Sys2Proof.Claims

/-- The round keys of the known-answer key: the table of 41_key_schedule.md R148. -/
def knownRoundKeys : Vector Word 32 :=
  #v[0xF12186F9, 0x41662B61, 0x5A6AB19A, 0x7BA92077, 0x367360F4, 0x776A0C61, 0xB6BB89B3, 0x24763151,
    0xA520307C, 0xB7584DBD, 0xC30753ED, 0x7EE55B57, 0x6988608C, 0x30D895B7, 0x44BA14AF, 0x104495A1,
    0xD120B428, 0x73B55FA3, 0xCC874966, 0x92244439, 0xE89E641F, 0x98CA015A, 0xC7159060, 0x99E1FD2E,
    0xB79BD80C, 0x1D2115B0, 0x0E228AEB, 0xF1780C81, 0x428D3654, 0x62293496, 0x01CF72E5, 0x9124A012]

/-- R148: the key schedule of the known-answer key. -/
theorem keySchedule_knownKey : keySchedule knownKey = knownRoundKeys := by decide +kernel

/-- A round (R162) on GENTAB's tables, each looked-up entry computed from its byte (R124, R125). -/
def gentabRound (x : Block) (k : Word) : Block :=
  let y := x[1] ^^^ x[2] ^^^ x[3] ^^^ k
  #v[x[1], x[2], x[3],
    x[0] ^^^ (tableEntry (byteOf y 3) ^^^ rotl (tableEntry (byteOf y 2)) 24 ^^^ rotl (tableEntry (byteOf y 1)) 16 ^^^
      rotl (tableEntry (byteOf y 0)) 8)]

theorem cryptRound_gentabTables : cryptRound gentabTables = gentabRound := by
  funext x k
  simp only [cryptRound, tVec, lookup_gentab_t0, lookup_gentab_t1, lookup_gentab_t2, lookup_gentab_t3, gentabRound]

/-- The 32 rounds and the final reversal (R174) of V1, under R148's round keys. -/
theorem gentabRounds_knownRoundKeys :
    (knownRoundKeys.toList.foldl gentabRound knownKey).reverse = knownCiphertext := by decide +kernel

/-- Settles O23: the schedule gives R148's round keys, and 32 rounds under them give V1's ciphertext. -/
theorem knownAnswer : Obligations.KnownAnswer := by
  unfold Obligations.KnownAnswer crypt
  rw [keySchedule_knownKey, cryptRound_gentabTables, gentabRounds_knownRoundKeys]

end Sys2Proof.Machine
end

section
/-! PROOFS. The statements of 10_state.md: the invariant and its steps (R38, R44), what changes each piece of state (R25–R36), the
STATUS word (R24, R30) and the scripts that load and read the stores (R31, R33, R34). -/

namespace Sys2Proof.Machine

/-! ### The invariant -/

/-- Coherent reads the engine and the base, and nothing of what the model keeps beside them. -/
theorem Coherent.congr {s t : State} (hs : Coherent s) (he : t.engine = s.engine) (hb : t.engineBase = s.engineBase) :
    Coherent t := by
  cases s
  cases t
  cases he
  cases hb
  exact { hs with }

theorem Coherent.latch_none {s : State} (hs : Coherent s) (hb : s.engine.status.busy = false) : s.engine.latch = none := by
  rw [← Option.isNone_iff_eq_none, ← Option.not_isSome, hs.latch_iff_busy, hb]
  rfl

/-- An idle state with an empty latch: what the invariant says of a running command holds of none. -/
theorem coherent_of_idle {s : State} (hbusy : s.engine.status.busy = false) (hlatch : s.engine.latch = none)
    (herr : s.engine.status.errcode.toNat ≤ 5)
    (hvalid : s.engine.status.keysValid = true → s.engine.status.tablesValid = true)
    (htables : s.engine.status.tablesValid = true → s.engine.tables = gentabTables)
    (hkeys : s.engine.status.keysValid = true → ∃ mk, s.engine.rk = keySchedule mk)
    (hbase : s.engineBase % Config.windowSize = 0) : Coherent s where
  latch_iff_busy := by rw [hlatch, hbusy]; rfl
  latch_wellFormed i hi := by rw [hlatch] at hi; cases hi
  latch_tables i hi := by rw [hlatch] at hi; cases hi
  latch_keys len hl := by rw [hlatch] at hl; rcases hl with hl | hl <;> cases hl
  cmd_latched i hi := by rw [hlatch] at hi; cases hi
  busy_errcode hb := by rw [hbusy] at hb; cases hb
  errcode_legal := herr
  keys_after_tables := hvalid
  tables_valid := htables
  keys_valid := hkeys
  base_aligned := hbase

/-- The engine of R41 meets the invariant at every aligned base. -/
theorem coherent_reset {s : State} (hbase : s.engineBase % Config.windowSize = 0) :
    Coherent { s with engine := Engine.reset } :=
  coherent_of_idle rfl rfl (Nat.zero_le 5) nofun nofun nofun hbase

/-- Settles O49: the base of the reset state is 0. -/
theorem resetMeetsTheInvariant : Obligations.ResetMeetsTheInvariant :=
  coherent_reset (s := State.reset) rfl

/-- The invariant says nothing of STICKY. -/
theorem Coherent.sticky {s : State} (hs : Coherent s) (v : BitVec 6) :
    Coherent { s with engine := { s.engine with status := { s.engine.status with sticky := v } } } := { hs with }

/-- A rejection (R202) on an idle engine: the latch is empty, so the new CMD contradicts no running command. -/
theorem Coherent.rejected {s : State} (hs : Coherent s) (hb : s.engine.status.busy = false) (w : Word) {e : ErrorCode}
    (he : e.code.toNat ≤ 5) :
    Coherent { s with engine := { s.engine with cmd := w, status := Status.rejected e s.engine.status } } :=
  coherent_of_idle hb (hs.latch_none hb) he hs.keys_after_tables hs.tables_valid hs.keys_valid hs.base_aligned

/-- Acceptance (R203) on an idle engine: the latched command is the one that passed the checks of R204. -/
theorem Coherent.accepted {s : State} (hs : Coherent s) {i : Instr} (hi : commandError i s.engine.status = none) :
    Coherent { s with
      engine := { s.engine with cmd := encode i, status := s.engine.status.accepted, latch := some i } } := by
  obtain ⟨hwf, htables, hkeys⟩ := commandError_eq_none hi
  exact
    { hs with
      latch_iff_busy := rfl
      latch_wellFormed := by rintro _ ⟨⟩; exact hwf
      latch_tables := by rintro _ ⟨⟩; exact htables
      latch_keys := fun len h => hkeys len (by simpa using h)
      cmd_latched := by rintro _ ⟨⟩; rfl
      busy_errcode := fun _ => rfl
      errcode_legal := Nat.zero_le 5 }

/-- Completion (R255): the latch is empty, and the stores it made valid hold what R44 asks of them. -/
theorem Coherent.completed {s t : State} (hs : Coherent s) (h : complete s = .next t) : Coherent t := by
  have hbusy := complete_busy h
  obtain ⟨herr, _, _, _, _, hlatch, hbase⟩ := complete_frame h
  obtain ⟨htables, hkeys, _⟩ := complete_results h
  have hkept (hv : s.engine.status.tablesValid = true) : t.engine.status.tablesValid = true := by
    rcases htables with ⟨hsame, _⟩ | ⟨_, hset, _⟩
    · rw [hsame, hv]
    · exact hset
  refine coherent_of_idle hbusy hlatch (herr ▸ hs.errcode_legal) (fun hk => ?_) (fun hv => ?_) (fun hk => ?_)
    (hbase ▸ hs.base_aligned)
  · rcases hkeys with ⟨hsame, _⟩ | ⟨⟨len, hl⟩, _, _⟩
    · exact hkept (hs.keys_after_tables (hsame ▸ hk))
    · exact hkept (hs.latch_tables _ hl nofun)
  · rcases htables with ⟨hsame, hstore⟩ | ⟨_, _, hset⟩
    · rw [hstore, hs.tables_valid (hsame ▸ hv)]
    · exact hset
  · rcases hkeys with ⟨hsame, hstore⟩ | ⟨_, _, hset⟩
    · rw [hstore]
      exact hs.keys_valid (hsame ▸ hk)
    · exact ⟨_, hset⟩

/-- Every change a step can make to the engine keeps the invariant. -/
theorem Coherent.engineStep {s : State} (hs : Coherent s) {g : Engine} (h : EngineStep s g) :
    Coherent { s with engine := g } := by
  cases h with
  | same => exact hs
  | dropped _ => exact hs.sticky _
  | cleared v _ => exact hs.sticky _
  | storedMk j v _ _ => exact { hs with }
  | storedBin b j v _ _ => exact { hs with }
  | illegal w _ hb _ _ => exact hs.rejected hb w (by decide)
  | rejected _ i _ hb _ _ he => exact hs.rejected hb (encode i) (commandError_code_le he)
  | accepted _ _ _ _ _ hi => exact hs.accepted hi
  | completed t _ _ hc =>
    obtain ⟨_, _, _, _, _, _, hbase⟩ := complete_frame hc
    exact (hs.completed hc).congr rfl hbase.symm
  | reset _ _ => exact coherent_reset hs.base_aligned

/-- Settles O50, by what each event does to the engine; no step changes the base. -/
theorem everyStepKeepsTheInvariant : Obligations.EveryStepKeepsTheInvariant := by
  intro s t hs h
  have hbase : t.engineBase = s.engineBase := step_engineBase h
  exact (hs.engineStep (step_engine h)).congr rfl hbase

/-- The sequence of R143 for a master key. -/
theorem keySequence_isKeySequence (mk : Block) : Claims.IsKeySequence mk (keySequence mk) := by
  refine ⟨fun j => ?_, fun n _ => keySequence_step mk n⟩
  fin_cases j <;> rfl

/-- Settles O51: the invariant gives GENTAB's tables and a schedule, whose entries are those of R124, R125 and R143. -/
theorem validStoresHoldTheirValues : Obligations.ValidStoresHoldTheirValues := by
  intro s hs _
  constructor
  · intro hv i
    simp only [hs.tables_valid hv, lookup_gentab_t0, lookup_gentab_t1, lookup_gentab_t2, lookup_gentab_t3, tableEntry_eq,
      and_self]
  · intro hv
    obtain ⟨mk, hrk⟩ := hs.keys_valid hv
    refine ⟨mk, keySequence mk, keySequence_isKeySequence mk, fun i => ?_⟩
    rw [hrk, keySchedule_eq_sequence]

/-! ### The STATUS word -/

/-- R24 and R30, bit by bit. -/
theorem getLsbD_statusWord (f : Status) (i : Nat) :
    f.word.getLsbD i =
      if i = 0 then f.busy else if i = 1 then f.tablesValid else if i = 2 then f.keysValid else if i = 3 then false
      else if i < 7 then f.errcode.getLsbD (i - 4) else if i = 7 then false else f.sticky.getLsbD (i - 8) := by
  simp only [Status.word, BitVec.getLsbD_append]
  rcases Nat.lt_or_ge i 8 with hi | hi
  · interval_cases i <;> simp
  · obtain ⟨k, rfl⟩ := Nat.exists_eq_add_of_le' hi
    have h7 : ¬ k + 8 < 7 := by omega
    have h3 : ¬ k + 4 < 3 := by omega
    by_cases hk : k < 6
    · simp [hk, h7, h3]
    · simp [hk, h7, BitVec.getLsbD_of_ge f.sticky k (by omega)]

/-- Settles O36: each field holds the bits `getLsbD_statusWord` gives it. -/
theorem statusLayout : Obligations.StatusLayout := by
  intro f
  simp only [getLsbD_statusWord]
  refine ⟨rfl, rfl, rfl, rfl, ?_, rfl, ?_, ?_⟩
  all_goals
    apply BitVec.eq_of_getLsbD_eq
    intro i hi
    simp only [BitVec.getLsbD_extractLsb', getLsbD_statusWord]
    interval_cases i <;> simp

/-- R30: the reserved bits 3, 7 and 31:14 read as 0. -/
theorem statusWord_reserved (f : Status) : f.word &&& 0xFFFFC088 = 0 := by
  apply BitVec.eq_of_getLsbD_eq
  intro i hi
  simp only [BitVec.getLsbD_and, getLsbD_statusWord]
  interval_cases i <;> simp

/-- R29: a write to STATUS masks the word with the written bits 13:8. -/
theorem statusWord_cleared (v : Word) (f : Status) :
    (Status.cleared v f).word = f.word &&& ~~~(v &&& 0x00003F00) := by
  apply BitVec.eq_of_getLsbD_eq
  intro i hi
  simp only [BitVec.getLsbD_and, getLsbD_statusWord]
  interval_cases i <;> simp

theorem hostWrite_status (v : Word) (s : State) :
    Claims.hostWrite 0x0004 v s = .next ((s.mapStatus (Status.cleared v)).respond .done) := by
  rw [Claims.hostWrite, hostAccess_admitted (r := .status) (by decide) rfl]
  rfl

/-- Settles O37: the write is admitted at any time, and its effect on the word is a mask. -/
theorem statusWriteClearsOnlySticky : Obligations.StatusWriteClearsOnlySticky := fun s v =>
  ⟨statusWord_reserved _, _, hostWrite_status v s, statusWord_cleared v _⟩

/-! ### What changes each piece of state -/

/-- A word that decodes is none of R98's illegal words, and its fields are those of its command (R91–R97). -/
theorem decode_ok_fields {w : Word} {i : Instr} (h : decode w = .ok i) :
    ¬ Claims.illegalWord w ∧ Claims.wordOp w = Laws.EncodingFields.opcode i ∧
      Claims.wordLen w = Laws.EncodingFields.length i := by
  simp only [decode, ne_eq, ← BitVec.toNat_inj, rsv1Field_toNat, rsv0Field_toNat, opField_toNat, lenField_toNat,
    BitVec.ofNat_eq_ofNat, BitVec.reduceToNat] at h
  split_ifs at h
  all_goals
    injection h with h
    subst h
    simp only [Claims.illegalWord, Claims.wordOp, Claims.wordLen, Laws.EncodingFields.opcode, Laws.EncodingFields.length,
      lenField_toNat, and_true]
    omega

/-- The LEN of a well-formed ENCB or DECB is one of R93's batch lengths. -/
theorem legalBatch_of_wellFormed {len : Byte} (h : batchLengths.contains len = true) : Claims.legalBatch len.toNat :=
  (batchLengthOk_iff len).mp (wellFormed_batch len ▸ h)

/-- A word whose command passes the model's checks passes those of R204. -/
theorem codeAtIssue_of_ok {w : Word} {i : Instr} {f : Status} (hw : decode w = .ok i) (hi : commandError i f = none) :
    Claims.CodeAtIssue w f 0 := by
  obtain ⟨hlegal, hop, hlen⟩ := decode_ok_fields hw
  obtain ⟨hwf, htables, hkeys⟩ := commandError_eq_none hi
  cases i with
  | gentab => simp [Claims.CodeAtIssue, hlegal, hop, Laws.EncodingFields.opcode]
  | derive len =>
    have h16 : len = 16 := by simpa [Instr.wellFormed] using hwf
    simp [Claims.CodeAtIssue, hlegal, hop, hlen, Laws.EncodingFields.opcode, Laws.EncodingFields.length, h16, htables nofun]
  | encb len =>
    simp [Claims.CodeAtIssue, hlegal, hop, hlen, Laws.EncodingFields.opcode, Laws.EncodingFields.length,
      legalBatch_of_wellFormed hwf, htables nofun, hkeys len (.inl rfl)]
  | decb len =>
    simp [Claims.CodeAtIssue, hlegal, hop, hlen, Laws.EncodingFields.opcode, Laws.EncodingFields.length,
      legalBatch_of_wellFormed hwf, htables nofun, hkeys len (.inr rfl)]

/-- R25: only acceptance sets BUSY. -/
theorem EngineStep.busy_set {s : State} {g : Engine} (h : EngineStep s g) (h0 : s.engine.status.busy = false)
    (h1 : g.status.busy = true) : ∃ w i, s.writes .cmd w ∧ decode w = .ok i ∧ commandError i s.engine.status = none := by
  cases h with
  | accepted w i _ hw hd hi => exact ⟨w, i, hw, hd, hi⟩
  | completed _ _ hb _ => exact absurd (hb.symm.trans h0) (by decide)
  | reset _ _ => cases h1
  | _ => exact absurd (h1.symm.trans h0) (by decide)

/-- R25: only completion and reset clear BUSY. -/
theorem EngineStep.busy_cleared {s : State} {g : Engine} (h : EngineStep s g) (h1 : s.engine.status.busy = true)
    (h0 : g.status.busy = false) : s.turn = .completion ∨ Claims.resetNext s := by
  cases h with
  | accepted => cases h0
  | completed _ ht _ _ => exact .inl ht
  | reset rest ht => exact .inr ⟨rest, ht⟩
  | _ => exact absurd (h1.symm.trans h0) (by decide)

/-- Settles O38: BUSY is set by acceptance alone, and an accepted word passed R204's checks. -/
theorem busyChangesOnly : Obligations.BusyChangesOnly := by
  intro s t h
  refine ⟨fun h0 h1 => ?_, (step_engine h).busy_cleared⟩
  obtain ⟨w, i, hw, hd, hi⟩ := (step_engine h).busy_set h0 h1
  exact ⟨w, hw, codeAtIssue_of_ok hd hi⟩

/-- R28: ERRCODE keeps its value but at a reset and at an issue on an idle engine. -/
theorem EngineStep.errcode_cases {s : State} {g : Engine} (h : EngineStep s g) :
    g.status.errcode = s.engine.status.errcode ∨ Claims.resetNext s ∨
      (s.engine.status.busy = false ∧ ∃ w, Claims.writeNext s .cmd w) := by
  cases h with
  | illegal w _ hb hw _ => exact .inr (.inr ⟨hb, w, hw⟩)
  | rejected w _ _ hb hw _ _ => exact .inr (.inr ⟨hb, w, hw⟩)
  | accepted w _ hb hw _ _ => exact .inr (.inr ⟨hb, w, hw⟩)
  | completed _ _ _ hc => obtain ⟨herr, _⟩ := complete_frame hc; exact .inl herr
  | reset rest ht => exact .inr (.inl ⟨rest, ht⟩)
  | _ => exact .inl rfl

/-- Settles O39: where ERRCODE has changed, one of the two events is left. -/
theorem errcodeChangesOnly : Obligations.ErrcodeChangesOnly := fun _ _ h hne =>
  (step_engine h).errcode_cases.resolve_left hne

/-- R29: STICKY gains bits, but at a reset and at a write to STATUS. -/
theorem EngineStep.sticky_cases {s : State} {g : Engine} (h : EngineStep s g) :
    (∃ m, g.status.sticky = s.engine.status.sticky ||| m) ∨ Claims.resetNext s ∨
      ∃ v, Claims.writeNext s .status v ∧ g.status.sticky = s.engine.status.sticky &&& ~~~(v.extractLsb' 8 6) := by
  have hsame : s.engine.status.sticky = s.engine.status.sticky ||| 0 := BitVec.or_zero.symm
  cases h with
  | dropped _ => exact .inl ⟨_, rfl⟩
  | illegal => exact .inl ⟨_, rfl⟩
  | rejected => exact .inl ⟨_, rfl⟩
  | cleared v hw => exact .inr (.inr ⟨v, hw, rfl⟩)
  | completed _ _ _ hc => obtain ⟨_, hst, _⟩ := complete_frame hc; exact .inl ⟨0, hst.trans hsame⟩
  | reset rest ht => exact .inr (.inl ⟨rest, ht⟩)
  | _ => exact .inl ⟨0, hsame⟩

/-- STICKY[k], k = 1 to 6, is bit 7 + k of STATUS (R24, R29). -/
theorem getLsbD_statusWord_sticky (f : Status) {k : Nat} (hk : 1 ≤ k) :
    f.word.getLsbD (7 + k) = f.sticky.getLsbD (k - 1) := by
  obtain ⟨k, rfl⟩ := Nat.exists_eq_add_of_le' hk
  simp [getLsbD_statusWord, show 7 + (k + 1) = k + 8 by omega, show ¬ k + 8 < 7 by omega]

/-- Settles O40: a write to STATUS that clears the bit had a 1 in it; no other event but reset clears one. -/
theorem stickyClearedOnly : Obligations.StickyClearedOnly := by
  intro s t k h hk1 hk6 hset hclear
  rw [getLsbD_statusWord_sticky _ hk1] at hset hclear
  rcases (step_engine h).sticky_cases with ⟨m, hm⟩ | hr | ⟨v, hw, hv⟩
  · rw [hm, BitVec.getLsbD_or, hset] at hclear
    cases hclear
  · exact .inl hr
  · refine .inr ⟨v, hw, ?_⟩
    have hbit : k - 1 < 6 := by omega
    have hbit8 : 8 + (k - 1) = 7 + k := by omega
    simpa [hv, hset, hbit, hbit8] using hclear

/-- R26, R36: TABLES_VALID and the tables keep their values but at a reset and at GENTAB's completion. -/
theorem EngineStep.tables_cases {s : State} {g : Engine} (h : EngineStep s g) :
    (g.status.tablesValid = s.engine.status.tablesValid ∧ g.tables = s.engine.tables) ∨
      (Claims.resetNext s ∧ g = Engine.reset) ∨
      (s.turn = .completion ∧ s.engine.latch = some .gentab ∧ g.status.tablesValid = true) := by
  cases h with
  | completed _ ht _ hc =>
    obtain ⟨hsame | ⟨hl, hv, _⟩, _, _⟩ := complete_results hc
    · exact .inl hsame
    · exact .inr (.inr ⟨ht, hl, hv⟩)
  | reset rest ht => exact .inr (.inl ⟨⟨rest, ht⟩, rfl⟩)
  | _ => exact .inl ⟨rfl, rfl⟩

/-- R27, R32, R146: KEYS_VALID and RK keep their values but at a reset and at DERIVE's completion, which leaves the schedule
of MK. -/
theorem EngineStep.keys_cases {s : State} {g : Engine} (h : EngineStep s g) :
    (g.status.keysValid = s.engine.status.keysValid ∧ g.rk = s.engine.rk) ∨ (Claims.resetNext s ∧ g = Engine.reset) ∨
      (s.turn = .completion ∧ (∃ len, s.engine.latch = some (.derive len)) ∧ g.status.keysValid = true ∧
        g.rk = keySchedule s.engine.masterKey) := by
  cases h with
  | completed _ ht _ hc =>
    obtain ⟨_, hsame | hderived, _⟩ := complete_results hc
    · exact .inl hsame
    · exact .inr (.inr ⟨ht, hderived⟩)
  | reset rest ht => exact .inr (.inl ⟨⟨rest, ht⟩, rfl⟩)
  | _ => exact .inl ⟨rfl, rfl⟩

/-- R34: BOUT keeps its value but at a reset and at the completion of ENCB or DECB. -/
theorem EngineStep.bout_cases {s : State} {g : Engine} (h : EngineStep s g) :
    g.bout = s.engine.bout ∨ Claims.resetNext s ∨
      (s.turn = .completion ∧ ∃ len, s.engine.latch = some (.encb len) ∨ s.engine.latch = some (.decb len)) := by
  cases h with
  | completed _ ht _ hc =>
    obtain ⟨_, _, hsame | hbatch⟩ := complete_results hc
    · exact .inl hsame
    · exact .inr (.inr ⟨ht, hbatch⟩)
  | reset rest ht => exact .inr (.inl ⟨rest, ht⟩)
  | _ => exact .inl rfl

/-- R31: MK keeps its value but at a reset and at a write to it on an idle engine. -/
theorem EngineStep.masterKey_cases {s : State} {g : Engine} (h : EngineStep s g) :
    g.masterKey = s.engine.masterKey ∨ Claims.resetNext s ∨
      (s.engine.status.busy = false ∧ ∃ j v, Claims.writeNext s (.mk j) v) := by
  cases h with
  | storedMk j v hb hw => exact .inr (.inr ⟨hb, j, v, hw⟩)
  | completed _ _ _ hc => obtain ⟨_, _, _, hmk, _⟩ := complete_frame hc; exact .inl hmk
  | reset rest ht => exact .inr (.inl ⟨rest, ht⟩)
  | _ => exact .inl rfl

/-- R33: BIN keeps its value but at a reset and at a write to it on an idle engine. -/
theorem EngineStep.bin_cases {s : State} {g : Engine} (h : EngineStep s g) :
    g.bin = s.engine.bin ∨ Claims.resetNext s ∨
      (s.engine.status.busy = false ∧ ∃ b j v, Claims.writeNext s (.bin b j) v) := by
  cases h with
  | storedBin b j v hb hw => exact .inr (.inr ⟨hb, b, j, v, hw⟩)
  | completed _ _ _ hc => obtain ⟨_, _, _, _, hbin, _⟩ := complete_frame hc; exact .inl hbin
  | reset rest ht => exact .inr (.inl ⟨rest, ht⟩)
  | _ => exact .inl rfl

/-- Settles O41: a flag that changes was cleared by reset or set by its command's completion. -/
theorem validFlagsChangeOnly : Obligations.ValidFlagsChangeOnly := by
  intro s t h
  have htables := (step_engine h).tables_cases
  have hkeys := (step_engine h).keys_cases
  refine ⟨fun h1 h0 => ?_, fun h1 h0 => ?_, fun h0 h1 => ?_, fun h0 h1 => ?_⟩
  · rcases htables with ⟨hsame, _⟩ | ⟨hr, _⟩ | ⟨_, _, hset⟩
    · simp [h1, h0] at hsame
    · exact hr
    · simp [h0] at hset
  · rcases hkeys with ⟨hsame, _⟩ | ⟨hr, _⟩ | ⟨_, _, hset, _⟩
    · simp [h1, h0] at hsame
    · exact hr
    · simp [h0] at hset
  · rcases htables with ⟨hsame, _⟩ | ⟨_, hreset⟩ | ⟨ht, hl, _⟩
    · simp [h1, h0] at hsame
    · rw [hreset] at h1; cases h1
    · exact ⟨ht, hl⟩
  · rcases hkeys with ⟨hsame, _⟩ | ⟨_, hreset⟩ | ⟨ht, hl, _, _⟩
    · simp [h1, h0] at hsame
    · rw [hreset] at h1; cases h1
    · exact ⟨ht, hl⟩

/-- Settles O42: each store keeps its value but at its own event and at reset, which is excluded. -/
theorem storesChangeOnly : Obligations.StoresChangeOnly := by
  intro s t h hnr
  have hg := step_engine h
  refine ⟨fun hne => ?_, fun hne => ?_, fun hne => ?_, fun hne => ?_, fun hne => ?_⟩
  · exact (hg.masterKey_cases.resolve_left hne).resolve_left hnr
  · exact (hg.bin_cases.resolve_left hne).resolve_left hnr
  · obtain ⟨ht, hl, _, hrk⟩ := (hg.keys_cases.resolve_left fun hsame => hne hsame.2).resolve_left fun hr => hnr hr.1
    exact ⟨ht, hl, hrk⟩
  · exact (hg.bout_cases.resolve_left hne).resolve_left hnr
  · obtain ⟨ht, hl, _⟩ := (hg.tables_cases.resolve_left fun hsame => hne hsame.2).resolve_left fun hr => hnr hr.1
    exact ⟨ht, hl⟩

/-! ### The scripts LDKEY, LDBLK and RDBLK (R101) -/

theorem runSteps_four {s a b c t : State} (h0 : step s = .next a) (h1 : step a = .next b) (h2 : step b = .next c)
    (h3 : step c = .next t) : runSteps 4 s = .next t := by
  simp only [runSteps, h0, h1, h2, h3]

theorem admitted_mk (j : Fin 4) (v : Word) : admittedReg (0x0010 + 4 * j.val) 32 (.write v) = some (.mk j) := by
  fin_cases j <;> rfl

/-- One WR of LDKEY on an idle engine (R31, R65). -/
theorem step_storeMk {s : State} {j : Fin 4} {v : Word} {rest : List Input} (hb : s.engine.status.busy = false)
    (hi : s.inputs = hostWr s.engineBase (0x0010 + 4 * j.val) v :: rest) :
    step s =
      .next { s with
        engine := Engine.storeMk j v s.engine, inputs := rest, delay := s.delay - 1, responses := .done :: s.responses } := by
  rw [step_access hb hi, hostAccess_admitted (r := .mk j) (by omega) (admitted_mk j v)]
  simp [writeAccess, guardedStore, hb, answered]
  rfl

/-- Storing the four words of a value in wire order leaves them all, whatever was there (R67, R68). -/
theorem set_wireWords (x : Block) (p : BitVec 128) :
    (((x.set 0 (wireWord p 0)).set 1 (wireWord p 1)).set 2 (wireWord p 2)).set 3 (wireWord p 3) = wireWords p := by
  ext j hj
  interval_cases j <;> simp [wireWords]

theorem getElem_wireWords (p : BitVec 128) (j : Fin 4) : (wireWords p)[j] = p.extractLsb' (96 - 32 * j.val) 32 := by
  fin_cases j <;> rfl

theorem wireWord_wireBlock (w : Block) (j : Fin 4) : (wireBlock w).extractLsb' (96 - 32 * j.val) 32 = w[j] := by
  apply BitVec.eq_of_getLsbD_eq
  intro i hi
  simp only [wireBlock, BitVec.getLsbD_extractLsb', BitVec.getLsbD_append, Nat.add_comm _ i]
  have h32 : ¬ i + 32 < 32 := by omega
  have h64 : ¬ i + 64 < 32 := by omega
  have h96 : ¬ i + 96 < 32 := by omega
  fin_cases j <;> simp [hi, h32, h64, h96]

/-- Settles O33: four writes, and the four words they leave. -/
theorem loadKeyScript : Obligations.LoadKeyScript := by
  intro s k rest hb hi
  refine ⟨_, runSteps_four (step_storeMk (j := 0) hb hi) (step_storeMk (j := 1) hb rfl) (step_storeMk (j := 2) hb rfl)
    (step_storeMk (j := 3) hb rfl), fun j => ?_, rfl⟩
  rw [← getElem_wireWords, ← set_wireWords s.engine.masterKey]
  rfl

/-- Settles O34: four writes to one block, the four words they leave there, and every other block out of their reach. -/
theorem loadBlockScript : Obligations.LoadBlockScript := by
  intro s b p rest hb hi
  refine ⟨_, runSteps_four (step_storeBin (j := 0) hb hi) (step_storeBin (b := b) (j := 1) hb rfl)
    (step_storeBin (b := b) (j := 2) hb rfl) (step_storeBin (b := b) (j := 3) hb rfl), fun j => ?_, fun c hc => ?_, rfl⟩
  · rw [← getElem_wireWords, ← set_wireWords s.engine.bin[b]]
    simp
  · have hv : b.val ≠ c.val := fun h => hc (Fin.ext h.symm)
    simp [Vector.getElem_set_ne, hv]

/-- Settles O35: four reads, answered by the words of BOUT[b], which make up one value in wire order. -/
theorem readBlockScript : Obligations.ReadBlockScript := by
  intro s b rest hb hi
  exact ⟨_, (List.finRange 4).map fun j => .data s.engine.bout[b][j], wireBlock s.engine.bout[b],
    runSteps_four (step_readBout (j := 0) hb hi) (step_readBout (b := b) (j := 1) hb rfl)
      (step_readBout (b := b) (j := 2) hb rfl) (step_readBout (b := b) (j := 3) hb rfl),
    rfl, wireWord_wireBlock s.engine.bout[b], rfl⟩

end Sys2Proof.Machine
end

section
/-! PROOFS. The statements of 20_memory.md: the register map (R61, R62), which accesses are admitted (R63, R66), what reads and
writes do (R64, R65, R83, R84), and what holds while a command runs and between engines (R82, R85). -/

namespace Sys2Proof.Machine

open Sys2Proof.Claims

/-! ### The register map -/

theorem offset_aligned (r : Reg) : r.offset % 4 = 0 := by
  cases r <;> simp only [Reg.offset] <;> omega

theorem offset_lt_windowSize (r : Reg) : r.offset < 0x2000 := by
  cases r <;> simp only [Reg.offset] <;> omega

/-- R66: the reserved offsets are no register's. -/
theorem offset_not_reserved (r : Reg) :
    ¬ ((0x0008 ≤ r.offset ∧ r.offset ≤ 0x000F) ∨ (0x0020 ≤ r.offset ∧ r.offset ≤ 0x007F) ∨
      (0x0200 ≤ r.offset ∧ r.offset ≤ 0x03FF) ∨ (0x0800 ≤ r.offset ∧ r.offset ≤ 0x0FFF)) := by
  cases r <;> simp only [Reg.offset] <;> omega

/-- The decoder of offsets inverts the map, register by register; `regAt_offset` is the other way round. -/
theorem regAt_of_offset (r : Reg) : regAt r.offset = some r := by
  cases r with
  | cmd => rfl
  | status => rfl
  | mk j => revert j; decide
  | rk i => revert i; decide
  | bin b j => revert b j; decide
  | bout b j => revert b j; decide
  | sbox i => revert i; decide +kernel
  | t0 i => revert i; decide +kernel
  | t1 i => revert i; decide +kernel
  | t2 i => revert i; decide +kernel
  | t3 i => revert i; decide +kernel

theorem writable_iff (r : Reg) : r.writable = true ↔ r = .cmd ∨ r = .status ∨ (∃ j, r = .mk j) ∨ ∃ b j, r = .bin b j := by
  cases r <;> simp [Reg.writable]

/-- Settles O24: the offsets are the map's own, and the decoder of offsets is inverse to it. -/
theorem registerMap : Obligations.RegisterMap :=
  ⟨⟨rfl, rfl, fun _ => rfl, fun _ => rfl, fun _ _ => ⟨rfl, rfl⟩, fun _ => ⟨rfl, rfl, rfl, rfl, rfl⟩⟩, writable_iff,
    fun r => ⟨offset_aligned r, offset_lt_windowSize r, regAt_of_offset r⟩, fun _ _ => regAt_offset⟩

/-! ### Admission -/

theorem permitted_iff (k : AccessKind) (r : Reg) : k.permitted r = true ↔ k = .read ∨ r.writable = true := by
  cases k <;> simp [AccessKind.permitted]

/-- The four conditions of R63. -/
theorem admittedReg_eq_some_iff {off width : Nat} {k : AccessKind} {r : Reg} :
    admittedReg off width k = some r ↔ width = 32 ∧ r.offset = off ∧ k.permitted r = true := by
  constructor
  · intro h
    obtain ⟨hw, h4, hr, hp⟩ := admit_eq_some h
    exact ⟨hw, (regAt_offset h4 hr).symm, hp⟩
  · rintro ⟨rfl, rfl, hp⟩
    simp [admittedReg, offset_aligned, regAt_of_offset, hp]

/-- Where no register is admitted the window answers BusError, and that is all. -/
theorem hostAccess_busError {s : State} {off width : Nat} {k : AccessKind} (ho : off < 0x2000)
    (h : ∀ r, admittedReg off width k ≠ some r) :
    hostAccess ⟨s.engineBase + off, width, k⟩ s = .next (s.respond .busError) := by
  simp only [hostAccess, windowOffset_base _ _ ho, Option.eq_none_iff_forall_ne_some.mpr h]

theorem hostRead_offset (r : Reg) (s : State) : hostRead r.offset s = .next (readAccess r s) :=
  hostAccess_admitted (offset_lt_windowSize r) (admittedReg_eq_some_iff.mpr ⟨rfl, rfl, rfl⟩)

theorem hostWrite_offset {r : Reg} (h : r.writable = true) (v : Word) (s : State) :
    hostWrite r.offset v s = answered .done (writeAccess r v s) :=
  hostAccess_admitted (k := .write v) (offset_lt_windowSize r) (admittedReg_eq_some_iff.mpr ⟨rfl, rfl, h⟩)

/-- An admitted read is answered with data. -/
theorem hostRead_answers_data (r : Reg) (s : State) :
    ∃ t v, hostRead r.offset s = .next t ∧ t.responses = .data v :: s.responses := by
  rw [hostRead_offset]
  cases h : s.engine.unspecified r with
  | true => exact ⟨_, _, rfl, by rw [readAccess_unspecified h]; rfl⟩
  | false => exact ⟨_, _, rfl, by rw [readAccess_specified h]; rfl⟩

/-- An admitted write is answered `done`, dropped or not. -/
theorem hostWrite_answers_done {r : Reg} (hr : r.writable = true) (v : Word) (s : State) :
    ∃ t, hostWrite r.offset v s = .next t ∧ t.responses = .done :: s.responses := by
  obtain ⟨t, ht⟩ := writeAccess_goes_on r v s
  obtain ⟨_, hresp, _⟩ := writeAccess_frame ht
  exact ⟨t.respond .done, by rw [hostWrite_offset hr, ht]; rfl, by rw [respond_responses, hresp]⟩

/-- Settles O25: the conditions are those under which the window admits the access to a register. -/
theorem admissionOfAccesses : Obligations.AdmissionOfAccesses := by
  intro s off width k ho
  constructor
  · rintro ⟨rfl, _, r, rfl, hk⟩
    cases k with
    | read =>
      obtain ⟨t, v, ht, hresp⟩ := hostRead_answers_data r s
      exact ⟨t, _, ht, hresp, nofun⟩
    | write v =>
      obtain ⟨t, ht, hresp⟩ := hostWrite_answers_done (hk.resolve_left nofun) v s
      exact ⟨t, _, ht, hresp, nofun⟩
  · intro hnot
    refine hostAccess_busError ho fun r hadm => hnot ?_
    obtain ⟨hw, rfl, hp⟩ := admittedReg_eq_some_iff.mp hadm
    exact ⟨hw, offset_aligned r, r, rfl, (permitted_iff k r).mp hp⟩

/-- Settles O26: an admitted access is at a register's offset, and the reserved ones are none. -/
theorem reservedOffsetsAreBusErrors : Obligations.ReservedOffsetsAreBusErrors := by
  intro s off width k hoff
  refine hostAccess_busError (by omega) fun r hadm => ?_
  obtain ⟨_, rfl, _⟩ := admittedReg_eq_some_iff.mp hadm
  exact offset_not_reserved r hoff

/-- Settles O27: outside its 8 KiB the window has no offset for the address. -/
theorem outsideTheWindow : Obligations.OutsideTheWindow := by
  intro s addr width k hout
  have hwindow : windowOffset s.engineBase addr = none := if_neg (by simp only [Config.windowSize]; omega)
  simp only [hostAccess, hwindow]
  rfl

/-! ### Reads -/

/-- Whether a command is latched that writes the register (R83). -/
theorem latch_writesReg_iff (latch : Option Instr) (r : Reg) :
    (latch.any fun i => Instr.writesReg i r) = true ↔
      (r.isTable = true ∧ latch = some .gentab) ∨ (r.isRoundKey = true ∧ ∃ len, latch = some (.derive len)) ∨
        (r.isOutput = true ∧ ∃ len, latch = some (.encb len) ∨ latch = some (.decb len)) := by
  cases latch with
  | none => simp
  | some i => cases i <;> simp [Instr.writesReg]

/-- R64, R70, R83: a register reads unspecified without its valid flag, or while the command runs that writes it. -/
theorem unspecified_iff (e : Engine) (r : Reg) :
    e.unspecified r = true ↔
      (r.isRoundKey = true ∧ (e.status.keysValid = false ∨
        (e.status.busy = true ∧ ∃ len, e.latch = some (.derive len)))) ∨
      (r.isTable = true ∧ (e.status.tablesValid = false ∨ (e.status.busy = true ∧ e.latch = some .gentab))) ∨
      (r.isOutput = true ∧ e.status.busy = true ∧ ∃ len, e.latch = some (.encb len) ∨ e.latch = some (.decb len)) := by
  simp only [Engine.unspecified, Status.unguarded, Bool.or_eq_true, Bool.and_eq_true, Bool.not_eq_true', latch_writesReg_iff]
  grind

theorem hostRead_specified {r : Reg} {s : State} (h : ¬ s.engine.unspecified r = true) :
    hostRead r.offset s = .next { s with responses := .data (s.engine.readReg r) :: s.responses } := by
  rw [hostRead_offset, readAccess_specified (Bool.eq_false_of_not_eq_true h)]
  rfl

/-- A register that no valid flag guards and no command writes has a value at any time. -/
theorem hostRead_plain {r : Reg} (hk : r.isRoundKey = false) (ht : r.isTable = false) (ho : r.isOutput = false) (s : State) :
    hostRead r.offset s = .next { s with responses := .data (s.engine.readReg r) :: s.responses } :=
  hostRead_specified (by simp [unspecified_iff, hk, ht, ho])

theorem hostRead_rk (i : Fin 32) {s : State} (hv : s.engine.status.keysValid = true)
    (hl : s.engine.status.busy = false ∨ ∀ len, s.engine.latch ≠ some (.derive len)) :
    hostRead (Reg.rk i).offset s = .next { s with responses := .data s.engine.rk[i] :: s.responses } := by
  refine hostRead_specified fun hu => ?_
  simp only [unspecified_iff, Reg.isRoundKey, Reg.isTable, Reg.isOutput, hv] at hu
  rcases hl with hl | hl <;> simp [hl] at hu

theorem hostRead_bout (b : Fin 8) (j : Fin 4) {s : State}
    (hl : s.engine.status.busy = false ∨ ∀ len, s.engine.latch ≠ some (.encb len) ∧ s.engine.latch ≠ some (.decb len)) :
    hostRead (Reg.bout b j).offset s = .next { s with responses := .data s.engine.bout[b][j] :: s.responses } := by
  refine hostRead_specified fun hu => ?_
  simp only [unspecified_iff, Reg.isRoundKey, Reg.isTable, Reg.isOutput] at hu
  rcases hl with hl | hl <;> simp [hl] at hu

theorem isTable_only {r : Reg} (h : r.isTable = true) : r.isRoundKey = false ∧ r.isOutput = false := by
  cases r <;> simp_all [Reg.isTable, Reg.isRoundKey, Reg.isOutput]

theorem hostRead_table {r : Reg} (hr : r.isTable = true) {s : State} (hv : s.engine.status.tablesValid = true)
    (hl : s.engine.status.busy = false ∨ s.engine.latch ≠ some .gentab) :
    hostRead r.offset s = .next { s with responses := .data (s.engine.readReg r) :: s.responses } := by
  obtain ⟨hk, ho⟩ := isTable_only hr
  refine hostRead_specified fun hu => ?_
  simp only [unspecified_iff, hk, ho, hv] at hu
  rcases hl with hl | hl <;> simp [hl] at hu

/-- Settles O28: each read is of a register that is not unspecified there. -/
theorem readsReturnRegisters : Obligations.ReadsReturnRegisters := by
  intro s
  refine ⟨hostRead_plain (r := .cmd) rfl rfl rfl s, hostRead_plain (r := .status) rfl rfl rfl s,
    fun j => hostRead_plain (r := .mk j) rfl rfl rfl s, fun b j => hostRead_plain (r := .bin b j) rfl rfl rfl s, fun i => ?_,
    fun i => hostRead_rk i, fun b j => hostRead_bout b j, fun i hv hl => ?_⟩
  · rw [← zeroExtend_byte]
    exact hostRead_plain (r := .sbox i) rfl rfl rfl s
  · exact ⟨hostRead_table (r := .t0 i) rfl hv hl, hostRead_table (r := .t1 i) rfl hv hl, hostRead_table (r := .t2 i) rfl hv hl,
      hostRead_table (r := .t3 i) rfl hv hl⟩

/-- Settles O29: each condition makes its kind of register unspecified. -/
theorem unspecifiedReadsAreFree : Obligations.UnspecifiedReadsAreFree := by
  intro s r h
  have hu : s.engine.unspecified r = true := by
    rw [unspecified_iff]
    rcases h with ⟨⟨i, rfl⟩, hc⟩ | ⟨⟨i, rfl | rfl | rfl | rfl⟩, hc⟩ | ⟨⟨b, j, rfl⟩, hc⟩
    · exact .inl ⟨rfl, hc⟩
    · exact .inr (.inl ⟨rfl, hc⟩)
    · exact .inr (.inl ⟨rfl, hc⟩)
    · exact .inr (.inl ⟨rfl, hc⟩)
    · exact .inr (.inl ⟨rfl, hc⟩)
    · exact .inr (.inr ⟨rfl, hc⟩)
  rw [hostRead_offset, readAccess_unspecified hu]
  rfl

/-- Settles O30, by the ends of a host access: a read is not decoded, a BusError, or a read of a register. -/
theorem readsHaveNoSideEffect : Obligations.ReadsHaveNoSideEffect := by
  intro s addr width
  obtain ⟨t, ht⟩ := hostAccess_goes_on ⟨addr, width, .read⟩ s
  refine ⟨t, ht, ?_⟩
  rcases hostAccess_cases ht with ⟨_, rfl⟩ | ⟨_, _, _, rfl⟩ | ⟨_, r, _, _, _, rfl⟩ | ⟨_, _, _, _, _, _, hk, _⟩
  · exact ⟨rfl, rfl, rfl, rfl⟩
  · exact ⟨rfl, rfl, rfl, rfl⟩
  · exact ⟨readAccess_engine r s, readAccess_inputs r s, readAccess_engineBase r s, readAccess_delay r s⟩
  · cases hk

/-! ### Writes -/

/-- The encodings of R94 to R97 as numbers. -/
theorem encode_toNat (i : Instr) :
    (encode i).toNat = Laws.EncodingFields.length i * 256 + Laws.EncodingFields.opcode i := by
  cases i <;> exact commandWord_toNat _ _

/-- A word decodes to no command but the one it encodes: its reserved fields are 0, and OP and LEN are the rest. -/
theorem encode_of_decode {w : Word} {i : Instr} (h : decode w = .ok i) : encode i = w := by
  obtain ⟨hlegal, hop, hlen⟩ := decode_ok_fields h
  simp only [illegalWord, wordOp, wordLen] at hlegal hop hlen
  apply BitVec.eq_of_toNat_eq
  rw [encode_toNat]
  omega

/-- R23: issue on an idle engine stores the word, whatever comes of it. -/
theorem issueWord_cmd {w : Word} {s t : State} (hb : s.engine.status.busy = false) (h : issueWord w s = .next t) :
    t.engine.cmd = w := by
  rcases issueWord_cases h with ⟨i, hi, he⟩ | ⟨_, _, hbusy, _⟩ | ⟨_, _, _, rfl⟩
  · rcases exec_cases he with ⟨hbusy, _⟩ | ⟨_, _, _, rfl⟩ | ⟨_, _, rfl⟩
    · cases hb.symm.trans hbusy
    · exact encode_of_decode hi
    · exact encode_of_decode hi
  · cases hb.symm.trans hbusy
  · rfl

theorem guardedStore_of_idle {f : Engine → Engine} {s : State} (h : s.engine.status.busy = false) :
    guardedStore f s = { s with engine := f s.engine } := by simp [guardedStore, h]

theorem guardedStore_of_busy {f : Engine → Engine} {s : State} (h : s.engine.status.busy = true) :
    guardedStore f s = dropWrite s := by simp [guardedStore, h]

/-- Settles O31: each write is admitted, and what is left is the register's own effect on an idle engine. -/
theorem writeEffects : Obligations.WriteEffects := by
  intro s v
  have hcmd : hostWrite 0x0000 v s = answered .done (issueWord v s) := hostWrite_offset (r := .cmd) rfl v s
  refine ⟨hcmd, fun hb => ?_, hostWrite_status v s, fun j hb => ?_, fun b j hb => ?_⟩
  · obtain ⟨t, ht⟩ := issueWord_goes_on v s
    have hstored := issueWord_cmd hb ht
    exact ⟨t.respond .done, by rw [hcmd, ht]; rfl, hstored⟩
  · refine (hostWrite_offset (r := .mk j) rfl v s).trans ?_
    rw [writeAccess, guardedStore_of_idle hb]
    rfl
  · refine (hostWrite_offset (r := .bin b j) rfl v s).trans ?_
    rw [writeAccess, guardedStore_of_idle hb]
    rfl

/-- What a dropped write leaves, STICKY[6] as the bit R29 counts it. -/
theorem dropWrite_eq (s : State) : dropWrite s = { s with engine := droppedEngine s.engine } := rfl

theorem exec_of_busy (i : Instr) {s : State} (h : s.engine.status.busy = true) : exec i s = .next (dropWrite s) := by
  rw [exec_eq_issue, issue_of_busy h]

/-- Settles O8: every command is one issue, and a busy engine drops it. -/
theorem commandDroppedWhileBusy : Obligations.CommandDroppedWhileBusy := by
  intro i s h
  rw [exec_of_busy i h, dropWrite_eq]

/-- A word is dropped by a busy engine whether or not it decodes. -/
theorem issueWord_of_busy (w : Word) {s : State} (h : s.engine.status.busy = true) : issueWord w s = .next (dropWrite s) := by
  unfold issueWord
  split
  · exact exec_of_busy _ h
  · rw [issueIllegal, issue_of_busy h]

/-- Settles O32: CMD, MK and BIN share one drop; STATUS is written as at any time. -/
theorem busyWritesAreDropped : Obligations.BusyWritesAreDropped := by
  intro s v hb
  have hdrop {r : Reg} (hr : r.writable = true) (hw : writeAccess r v s = .next (dropWrite s)) :
      hostWrite r.offset v s = .next { s with engine := droppedEngine s.engine, responses := .done :: s.responses } := by
    rw [hostWrite_offset hr, hw, dropWrite_eq]
    rfl
  refine ⟨?_, fun hs => hs.busy_errcode hb, hostWrite_status v s⟩
  rintro r (rfl | ⟨j, rfl⟩ | ⟨b, j, rfl⟩)
  · exact hdrop rfl (issueWord_of_busy v hb)
  · exact hdrop rfl (by rw [writeAccess, guardedStore_of_busy hb])
  · exact hdrop rfl (by rw [writeAccess, guardedStore_of_busy hb])

/-! ### A running command -/

/-- The second engine is the first but for STICKY. -/
def Engine.SameButSticky (g g' : Engine) : Prop :=
  g' = { g with status := { g.status with sticky := g'.status.sticky } }

theorem Engine.SameButSticky.trans {g g' g'' : Engine} (h : g.SameButSticky g') (h' : g'.SameButSticky g'') :
    g.SameButSticky g'' := by
  unfold Engine.SameButSticky at h h' ⊢
  rw [h', h]

/-- R84, R85: an event on a busy engine that leaves it busy changes STICKY at most; acceptance and the stores need an idle
engine, completion and reset leave one. -/
theorem EngineStep.sameButSticky {s : State} {g : Engine} (h : EngineStep s g) (h1 : s.engine.status.busy = true)
    (h1' : g.status.busy = true) : s.engine.SameButSticky g := by
  cases h with
  | same => rfl
  | dropped _ => rfl
  | cleared _ _ => rfl
  | completed t _ _ hc => cases (complete_busy hc).symm.trans h1'
  | reset _ _ => cases h1'
  | storedMk _ _ h0 _ => cases h0.symm.trans h1
  | storedBin _ _ _ h0 _ => cases h0.symm.trans h1
  | illegal _ _ h0 _ _ => cases h0.symm.trans h1
  | rejected _ _ _ h0 _ _ _ => cases h0.symm.trans h1
  | accepted _ _ h0 _ _ _ => cases h0.symm.trans h1

/-- Settles O47, by induction on the number of steps, the last step taken apart. -/
theorem runningCommandKeepsTheEngine : Obligations.RunningCommandKeepsTheEngine := by
  intro n s t hb hbusy ht
  suffices s.engine.SameButSticky t.engine from this
  induction n generalizing t with
  | zero => injection ht with ht; subst ht; rfl
  | succ n ih =>
    obtain ⟨u, hu, hub⟩ := hbusy n (by omega)
    obtain ⟨t', ht', htb⟩ := hbusy (n + 1) le_rfl
    cases ht'.symm.trans ht
    have hstep : step u = .next t := by rw [← runSteps_succ_last n s u hu, ht]
    exact (ih u (fun k hk => hbusy k (by omega)) hu).trans ((step_engine hstep).sameButSticky hub htb)

/-- The output of an ENCB is R174's batch result under RK (R164, R167). -/
theorem runBatch_forward_result (n : Nat) (e : Engine) (b : Fin 8) :
    (runBatch n id e).bout[b] = batchResult e.tables n e.bin e.rk b := by
  rw [runBatch_bout, roundKeys_forward]; rfl

/-- The output of a DECB is R174's batch result under RK reversed (R164, R168). -/
theorem runBatch_backward_result (n : Nat) (e : Engine) (b : Fin 8) :
    (runBatch n Fin.rev e).bout[b] = batchResult e.tables n e.bin e.rk.reverse b := by
  rw [runBatch_bout, roundKeys_backward]; rfl

/-- R255: a completion leaves the latched command's result. -/
theorem complete_resultOf {i : Instr} {s t : State} (hl : s.engine.latch = some i) (h : complete s = .next t) :
    ResultOf i s.engine t.engine := by
  rcases complete_cases h with ⟨hi, rfl⟩ | ⟨len, hi, rfl⟩ | ⟨len, hi, rfl⟩ | ⟨len, hi, rfl⟩ <;> cases hl.symm.trans hi
  · exact ⟨rfl, rfl, rfl⟩
  · exact ⟨rfl, rfl, rfl⟩
  · rw [completeEncb, completeBatch_eq]
    exact ⟨runBatch_forward_result (blockCount len) s.engine, rfl, rfl⟩
  · rw [completeDecb, completeBatch_eq]
    exact ⟨runBatch_backward_result (blockCount len) s.engine, rfl, rfl⟩

/-- A command's result depends on MK, RK, BIN, BOUT and the tables alone: not on what its issue and the drops of later writes
change. -/
theorem ResultOf.of_command_state {i : Instr} {g v : Engine} {cmd : Word} {status : Status} {latch : Option Instr}
    (h : ResultOf i { g with cmd := cmd, status := status, latch := latch } v) : ResultOf i g v := by
  cases i <;> exact h

/-- The engine is busy after an issue on an idle one only by acceptance (R203). -/
theorem exec_accepted {i : Instr} {s t : State} (h : exec i s = .next t) (h0 : s.engine.status.busy = false)
    (h1 : t.engine.status.busy = true) : t.engine = acceptedEngine i s.engine := by
  rcases exec_cases h with ⟨hb, _⟩ | ⟨_, _, _, rfl⟩ | ⟨_, _, rfl⟩
  · cases h0.symm.trans hb
  · cases h0.symm.trans h1
  · rfl

/-- Settles O48: the engine the completion meets is the accepted one but for STICKY, on which no result depends. -/
theorem resultIsOfTheValuesAtAcceptance : Obligations.ResultIsOfTheValuesAtAcceptance := by
  intro i s t u v n hidle hexec hbusy hrun hturn hstep
  obtain ⟨t', ht', htb⟩ := hbusy 0 (Nat.zero_le n)
  cases ht'
  have hacc := exec_accepted hexec hidle htb
  have hkept := runningCommandKeepsTheEngine n t u htb hbusy hrun
  rw [hacc] at hkept
  have hc : complete u = .next v := by rw [← hstep, step, nextEvent, hturn]
  have hlatch : u.engine.latch = some i := by rw [hkept]; rfl
  have hresult := complete_resultOf hlatch hc
  rw [hkept] at hresult
  exact ⟨ResultOf.of_command_state hresult, complete_busy hc⟩

/-! ### Several engines -/

theorem stepAt_none {k : Nat} {sys : System} (h : sys.engines[k]? = none) : sys.stepAt k = .next sys := by
  simp only [System.stepAt, h]

theorem stepAt_some {k : Nat} {sys : System} {s s' : State} (h : sys.engines[k]? = some s) (hs : step s = .next s') :
    sys.stepAt k = .next ⟨sys.engines.set k s'⟩ := by
  simp only [System.stepAt, h, hs]

/-- R82: engine k's step reaches no other engine. -/
theorem stepAt_other {sys sys' : System} {k j : Nat} (h : sys.stepAt k = .next sys') (hjk : j ≠ k) :
    sys'.engines[j]? = sys.engines[j]? := by
  rcases stepAt_cases h with ⟨_, rfl⟩ | ⟨_, _, _, _, rfl⟩
  · rfl
  · exact List.getElem?_set_ne hjk.symm

theorem runAlong_two_iff {sys sys' : System} {k j : Nat} :
    sys.runAlong [k, j] = .next sys' ↔ ∃ m, sys.stepAt k = .next m ∧ m.stepAt j = .next sys' := by
  simp only [System.runAlong]
  cases sys.stepAt k with
  | next m => cases h : m.stepAt j <;> simp [h]
  | fault => simp
  | refused => simp

/-- Two engines' steps commute: each finds its own engine as the other's step left it, untouched. -/
theorem stepAt_comm {sys m sys' : System} {k j : Nat} (hjk : j ≠ k) (hk : sys.stepAt k = .next m)
    (hj : m.stepAt j = .next sys') : ∃ m', sys.stepAt j = .next m' ∧ m'.stepAt k = .next sys' := by
  have hmj := stepAt_other hk hjk
  rcases stepAt_cases hj with ⟨hnone, rfl⟩ | ⟨s, s', hs, hstep, rfl⟩
  · exact ⟨sys, stepAt_none (hmj ▸ hnone), hk⟩
  · have hj' := stepAt_some (hmj ▸ hs) hstep
    have hm'k := stepAt_other hj' hjk.symm
    refine ⟨_, hj', ?_⟩
    rcases stepAt_cases hk with ⟨hnone, rfl⟩ | ⟨a, a', ha, hastep, rfl⟩
    · exact stepAt_none (hm'k.trans hnone)
    · rw [stepAt_some (hm'k.trans ha) hastep, List.set_comm _ _ hjk]

/-- Settles O56: a step writes one entry of the list of engines, and reads that one alone. -/
theorem enginesShareNothing : Obligations.EnginesShareNothing := by
  refine ⟨fun _ _ _ _ => stepAt_other, fun sys sys' k j hjk h => ?_⟩
  obtain ⟨m, hk, hj⟩ := runAlong_two_iff.mp h
  exact runAlong_two_iff.mpr (stepAt_comm hjk hk hj)

end Sys2Proof.Machine
end

section
/-! PROOFS. The statements of 30_encoding.md: the decoder and the encoder are inverse (R94–R99), the words commands are written as
(R100), and the steps of a command's write to CMD (R90, R204) and of POLL (R101). -/

namespace Sys2Proof

/-! ### The fields of a command's word (R91) -/

@[simp] theorem opField_commandWord (op : BitVec 4) (len : Byte) : opField (commandWord op len) = op := by
  apply BitVec.eq_of_toNat_eq
  rw [opField_toNat, commandWord_toNat]
  omega

@[simp] theorem rsv0Field_commandWord (op : BitVec 4) (len : Byte) : rsv0Field (commandWord op len) = 0#4 := by
  apply BitVec.eq_of_toNat_eq
  rw [rsv0Field_toNat, commandWord_toNat, BitVec.toNat_ofNat]
  omega

@[simp] theorem lenField_commandWord (op : BitVec 4) (len : Byte) : lenField (commandWord op len) = len := by
  apply BitVec.eq_of_toNat_eq
  rw [lenField_toNat, commandWord_toNat]
  omega

@[simp] theorem rsv1Field_commandWord (op : BitVec 4) (len : Byte) : rsv1Field (commandWord op len) = 0#16 := by
  apply BitVec.eq_of_toNat_eq
  rw [rsv1Field_toNat, commandWord_toNat, BitVec.toNat_ofNat]
  omega

/-! ### Decoding and encoding -/

/-- A word whose reserved fields are 0 is decoded by OP and LEN alone (R99). -/
theorem decode_commandWord (op : BitVec 4) (len : Byte) :
    decode (commandWord op len) =
      if op = 0x1 then (if len = 0 then .ok .gentab else .error .gentabWithLength)
      else if op = 0x2 then .ok (.derive len)
      else if op = 0x3 then .ok (.encb len)
      else if op = 0x4 then .ok (.decb len)
      else .error .reservedOpcode := by
  simp only [decode, rsv1Field_commandWord, rsv0Field_commandWord, opField_commandWord, lenField_commandWord,
    BitVec.ofNat_eq_ofNat, ne_eq, not_true_eq_false, or_self, if_false]

theorem decode_encode (i : Instr) : decode (encode i) = .ok i := by
  cases i <;> exact decode_commandWord _ _

/-- Settles O1: the decoder finds each field of a command's word as the encoder placed it. -/
theorem decodeReadsEveryEncoding : Obligations.DecodeReadsEveryEncoding := decode_encode

/-- Settles O2: the reserved fields of a word that decodes are 0, and OP and LEN are those of its command. -/
theorem everyCommandHasOneWord : Obligations.EveryCommandHasOneWord := fun _ _ => Machine.encode_of_decode

/-- Settles O4: the seven words are closed, and the decoder runs on each. -/
theorem writtenWordsDecode : Obligations.WrittenWordsDecode := by
  unfold Obligations.WrittenWordsDecode
  decide

/-! ### Commands as written in a script -/

/-- R100's form of a command's word: the operand shifted to LEN, with OP in the low bits. -/
theorem commandWord_eq_shift (op : BitVec 4) (len : Byte) :
    commandWord op len = (len.zeroExtend 32 <<< 8) ||| op.zeroExtend 32 := by
  apply BitVec.eq_of_toNat_eq
  have hop : op.toNat < 2 ^ 8 := by omega
  simp only [commandWord_toNat, BitVec.toNat_or, BitVec.toNat_shiftLeft, BitVec.truncate_eq_setWidth, BitVec.toNat_setWidth]
  rw [Nat.mod_eq_of_lt (a := len.toNat) (by omega), Nat.mod_eq_of_lt (a := op.toNat) (by omega), Nat.shiftLeft_eq,
    Nat.mod_eq_of_lt (by omega), ← Nat.shiftLeft_eq, ← Nat.shiftLeft_add_eq_or_of_lt hop, Nat.shiftLeft_eq]

/-- Settles O3: the defaults are closed words, and a given operand is R100's shift. -/
theorem syntaxTableWords : Obligations.SyntaxTableWords :=
  ⟨by decide, by decide, by decide, by decide, commandWord_eq_shift 0x2, commandWord_eq_shift 0x3, commandWord_eq_shift 0x4,
    fun _ => rfl⟩

end Sys2Proof

namespace Sys2Proof.Machine

open Sys2Proof.Claims

/-! ### The host's turn -/

theorem step_outside {s : State} {i : Input} {rest : List Input} (h : s.turn = .outside i rest) :
    step s = hostTurn i (s.takeInput rest) := by
  simp only [step, nextEvent, h]

theorem issueWord_of_ok {w : Word} {i : Instr} (h : decode w = .ok i) (s : State) : issueWord w s = exec i s := by
  simp only [issueWord, h]

/-- R90, R204: the write of a command's word to CMD runs the command, and the bus answers it. -/
theorem hostWrite_command {w : Word} {i : Instr} (h : decode w = .ok i) (s : State) :
    hostWrite 0x0000 w s = answered .done (exec i s) := by
  rw [← issueWord_of_ok h]
  exact hostWrite_offset (r := .cmd) rfl w s

theorem step_write_command {s : State} {rest : List Input} {w : Word} {i : Instr}
    (ht : s.turn = .outside (.access ⟨s.engineBase, 32, .write w⟩) rest) (hw : decode w = .ok i) :
    step s = answered .done (exec i (s.takeInput rest)) := by
  rw [step_outside ht]
  exact hostWrite_command hw (s.takeInput rest)

/-- A placed command is next, even on a busy engine: placing it adds the host turn it takes (log 7). -/
theorem turn_placeCommand (w : Word) (s : State) :
    (s.placeCommand w).turn = .outside (.access ⟨s.engineBase, 32, .write w⟩) s.inputs := by
  simp [State.turn]

@[simp] theorem takeInput_placeCommand (w : Word) (s : State) : (s.placeCommand w).takeInput s.inputs = s := rfl

theorem withFetchWord_toNat (w : Word) (s : State) : s.withFetchWord 32 w.toNat = s.placeCommand w := by
  rw [State.withFetchWord, Nat.mod_eq_of_lt w.isLt, BitVec.ofNat_toNat, BitVec.setWidth_eq]

/-- Settles O43: the write is a step of its own turn, and a placed word has the turn and leaves the state it was placed on. -/
theorem stepRunsTheDecodedCommand : Obligations.StepRunsTheDecodedCommand := by
  refine ⟨fun s rest w i => step_write_command, fun s w i hw => ?_⟩
  rw [withFetchWord_toNat, step_write_command (turn_placeCommand w s) hw, takeInput_placeCommand]

/-- One turn of POLL (R101): STATUS is always specified, so its word is the answer. -/
theorem pollStatus_eq (s : State) :
    pollStatus s =
      { s with
        inputs := if s.engine.status.busy then .poll :: s.inputs else s.inputs
        responses := .data s.engine.status.word :: s.responses } := by
  simp only [pollStatus, readAccess_specified (unspecified_status s.engine)]
  split <;> rfl

/-- Settles O45: the step is one turn of POLL, on the state with the input taken. -/
theorem pollStep : Obligations.PollStep := by
  intro s rest ht
  refine ⟨pollStatus (s.takeInput rest), step_outside ht, ?_⟩
  rw [pollStatus_eq]
  exact ⟨rfl, rfl, rfl⟩

end Sys2Proof.Machine
end

section
/-! PROOFS. The statements of 40_tables.md: SBOX (R122), GENTAB from its issue to its completion (R123–R125), the byte each table
stands for (R127), and the frame of every completion. -/

namespace Sys2Proof.Machine

/-! ### The S-box -/

/-- R122 as it reads: no byte value occurs twice in the table of R121. -/
theorem sboxRom_nodup : sboxRom.toList.Nodup := by decide +kernel

theorem sbox_injective : Function.Injective sbox := by
  intro x y h
  have hindex (i : Byte) : i.toNat < sboxRom.toList.length := Vector.length_toList.symm ▸ i.isLt
  have hentries : sboxRom.toList[x.toNat]'(hindex x) = sboxRom.toList[y.toNat]'(hindex y) := by
    rw [Vector.getElem_toList, Vector.getElem_toList]
    exact h
  exact BitVec.eq_of_toNat_eq (sboxRom_nodup.getElem_inj_iff.mp hentries)

/-- Settles O15: 256 different entries of 8 bits are all the bytes. -/
theorem sboxIsAPermutation : Obligations.SboxIsAPermutation := by
  have hbijective : Function.Bijective sbox := Finite.injective_iff_bijective.mp sbox_injective
  exact ⟨hbijective.existsUnique, rfl, rfl, rfl, rfl, rfl⟩

/-! ### Diffusion and rotation -/

/-- Bit j of a rotation comes from n places below, around the end of the word. -/
theorem getLsbD_rotl_mod (x : Word) {n j : Nat} (hn : n < 32) (hj : j < 32) :
    (rotl x n).getLsbD j = x.getLsbD ((j + (32 - n)) % 32) := by
  rw [getLsbD_rotl x hn hj]
  split <;> congr 1 <;> omega

theorem rotl_comm (x : Word) {m n : Nat} (hm : m < 32) (hn : n < 32) : rotl (rotl x m) n = rotl (rotl x n) m := by
  apply BitVec.eq_of_getLsbD_eq
  intro j hj
  have hmod (k : Nat) : k % 32 < 32 := Nat.mod_lt k (by decide)
  rw [getLsbD_rotl_mod _ hn hj, getLsbD_rotl_mod _ hm hj, getLsbD_rotl_mod _ hm (hmod _), getLsbD_rotl_mod _ hn (hmod _)]
  congr 1
  omega

/-- R127: L is an exclusive or of rotations, and rotations commute. -/
theorem diffuse_rotl (x : Word) {n : Nat} (hn : n < 32) : diffuse (rotl x n) = rotl (diffuse x) n := by
  have hcomm {k : Nat} (hk : k < 32) : rotl (rotl x n) k = rotl (rotl x k) n := rotl_comm x hn hk
  simp only [diffuse, rotl_xor, hcomm (show 2 < 32 by decide), hcomm (show 10 < 32 by decide),
    hcomm (show 18 < 32 by decide), hcomm (show 24 < 32 by decide)]

/-- A rotated entry of T0 is L of the byte in the place the rotation takes it to. -/
theorem rotl_tableEntry (i : Byte) {n : Nat} (hn : n < 32) : rotl (tableEntry i) n = diffuse (rotl (sbox i ++ 0#24) n) := by
  rw [tableEntry_eq, diffuse_rotl _ hn]

/-- Settles O17: T3, T2 and T1 are T0 rotated, and L passes through the rotation to the byte. -/
theorem tablesHoldByteContributions : Obligations.TablesHoldByteContributions := by
  refine ⟨fun x n hn => diffuse_rotl x hn, fun i => ?_⟩
  obtain ⟨hsecond, hthird, hlast⟩ := rotl_top_byte (sbox i)
  refine ⟨?_, ?_, ?_, ?_⟩
  · rw [lookup_gentab_t0, tableEntry_eq]
  · rw [lookup_gentab_t3, rotl_tableEntry i (by decide), hsecond]
  · rw [lookup_gentab_t2, rotl_tableEntry i (by decide), hthird]
  · rw [lookup_gentab_t1, rotl_tableEntry i (by decide), hlast]

/-! ### GENTAB -/

/-- R124, R125: the entries of the generated tables. -/
theorem gentabTables_entries (i : Byte) :
    lookup gentabTables.t0 i = diffuse (sbox i ++ 0#24) ∧
    lookup gentabTables.t1 i = rotl (lookup gentabTables.t0 i) 8 ∧
    lookup gentabTables.t2 i = rotl (lookup gentabTables.t0 i) 16 ∧
    lookup gentabTables.t3 i = rotl (lookup gentabTables.t0 i) 24 := by
  simp only [lookup_gentab_t0, lookup_gentab_t1, lookup_gentab_t2, lookup_gentab_t3, tableEntry_eq, and_self]

/-- Settles O10: no check of R204 is left to a GENTAB word, and its completion writes the generated tables. -/
theorem gentabRuns : Obligations.GentabRuns := by
  intro s hidle
  have haccepted : exec .gentab s = .next (accept .gentab (commandLatency .gentab s) (s.storeCmd (encode .gentab))) :=
    exec_of_ok hidle rfl
  exact ⟨_, completeGentab _, haccepted, rfl, rfl, gentabTables_entries, rfl⟩

/-! ### The frame of completion -/

/-- No completion asks or answers the host. -/
theorem complete_host {s t : State} (h : complete s = .next t) : t.inputs = s.inputs ∧ t.responses = s.responses := by
  rcases complete_cases h with ⟨_, rfl⟩ | ⟨_, _, rfl⟩ | ⟨_, _, rfl⟩ | ⟨_, _, rfl⟩
  · exact ⟨rfl, rfl⟩
  · exact ⟨rfl, rfl⟩
  · rw [completeEncb, completeBatch_eq]
    exact ⟨rfl, rfl⟩
  · rw [completeDecb, completeBatch_eq]
    exact ⟨rfl, rfl⟩

/-- A register but STATUS keeps its value at the completion of a command that does not write it (R83): by the store the register
is in, which either no completion changes, or only the command that writes it. -/
theorem complete_readReg {s t : State} (h : complete s = .next t) {r : Reg} (hstatus : r ≠ .status)
    (hother : ∀ i, s.engine.latch = some i → Instr.writesReg i r = false) : t.engine.readReg r = s.engine.readReg r := by
  obtain ⟨_, _, hcmd, hmk, hbin, _, _⟩ := complete_frame h
  obtain ⟨htables, hkeys, houtput⟩ := complete_results h
  have htab (hr : r.isTable = true) : t.engine.tables = s.engine.tables := by
    rcases htables with ⟨_, hsame⟩ | ⟨hl, _, _⟩
    · exact hsame
    · cases hr.symm.trans (hother _ hl)
  have hrk (hr : r.isRoundKey = true) : t.engine.rk = s.engine.rk := by
    rcases hkeys with ⟨_, hsame⟩ | ⟨⟨_, hl⟩, _, _⟩
    · exact hsame
    · cases hr.symm.trans (hother _ hl)
  have hbout (hr : r.isOutput = true) : t.engine.bout = s.engine.bout := by
    rcases houtput with hsame | ⟨_, hl | hl⟩
    · exact hsame
    · cases hr.symm.trans (hother _ hl)
    · cases hr.symm.trans (hother _ hl)
  cases r with
  | cmd => exact hcmd
  | status => exact absurd rfl hstatus
  | mk j => simp only [Engine.readReg, hmk]
  | rk i => simp only [Engine.readReg, hrk rfl]
  | bin b j => simp only [Engine.readReg, hbin]
  | bout b j => simp only [Engine.readReg, hbout rfl]
  | sbox i => rfl
  | t0 i => simp only [Engine.readReg, htab rfl]
  | t1 i => simp only [Engine.readReg, htab rfl]
  | t2 i => simp only [Engine.readReg, htab rfl]
  | t3 i => simp only [Engine.readReg, htab rfl]

/-- Settles O14: the registers by the stores they are in; each valid flag is set by one command alone. -/
theorem completionFrame : Obligations.CompletionFrame := by
  intro s t h
  obtain ⟨herr, hsticky, _, _, _, hlatch, hbase⟩ := complete_frame h
  obtain ⟨htables, hkeys, _⟩ := complete_results h
  obtain ⟨hinputs, hresponses⟩ := complete_host h
  refine ⟨fun r => complete_readReg h, fun hl => ?_, fun hl => ?_, complete_busy h, hlatch, herr, hsticky, hbase, hinputs,
    hresponses⟩
  · rcases htables with ⟨hsame, _⟩ | ⟨hgentab, _, _⟩
    · exact hsame
    · exact absurd hgentab hl
  · rcases hkeys with ⟨hsame, _⟩ | ⟨⟨len, hderive⟩, _, _⟩
    · exact hsame
    · exact absurd hderive (hl len)

end Sys2Proof.Machine
end

section
/-! PROOFS. The statement of 41_key_schedule.md: DERIVE from its issue to its completion (R143). -/

namespace Sys2Proof.Machine

/-- R143: the round keys are the entries K[4..35] of a sequence for the master key. -/
theorem keySchedule_entries (mk : Block) :
    ∃ K, Claims.IsKeySequence mk K ∧ ∀ i : Fin 32, (keySchedule mk)[i] = K (i + 4) :=
  ⟨keySequence mk, keySequence_isKeySequence mk, keySchedule_eq_sequence mk⟩

/-- R143, R144: with valid tables a key length of 16 passes the checks of DERIVE. -/
theorem deriveError_of_tablesValid {f : Status} (h : f.tablesValid = true) : deriveError 16 f = none := by
  simp [deriveError, h, keyLengthOk]

/-- Settles O11: the checks are those on the tables and the key length, and completion writes the schedule of MK. -/
theorem deriveRuns : Obligations.DeriveRuns := by
  intro s hidle htables
  have haccepted : exec (.derive 16) s =
      .next (accept (.derive 16) (commandLatency (.derive 16) s) (s.storeCmd (encode (.derive 16)))) :=
    exec_of_ok hidle (deriveError_of_tablesValid htables)
  exact ⟨_, completeDerive _, haccepted, rfl, rfl, keySchedule_entries s.engine.masterKey, rfl⟩

end Sys2Proof.Machine
end

section
/-! PROOFS. The statements of 42_cipher.md: the table lookups as L(tau(x)) (R161), one lane of the datapath (R169, R172), the
inversion under reversed round keys (R170), and ENCB and DECB from their issue to their completion (R167, R168, R174). -/

namespace Sys2Proof.Machine

open Sys2Proof.Claims

/-! ### The four table lookups -/

/-- A word is the exclusive or of its four bytes, each in its place. -/
theorem append_bytes_eq_xor (a b c d : Byte) :
    a ++ b ++ c ++ d = (a ++ 0#24) ^^^ (0#8 ++ b ++ 0#16) ^^^ (0#16 ++ c ++ 0#8) ^^^ (0#24 ++ d) := by
  apply BitVec.eq_of_getLsbD_eq
  intro i hi
  simp only [BitVec.getLsbD_xor, BitVec.getLsbD_append, BitVec.getLsbD_zero]
  by_cases hd : i < 8
  · simp [hd, show i < 16 by omega, show i < 24 by omega]
  by_cases hc : i < 16
  · simp [hd, hc, show i - 8 < 8 by omega, show i < 24 by omega]
  by_cases hb : i < 24
  · simp [hd, hc, hb, show ¬ i - 8 < 8 by omega, show i - 16 < 8 by omega, Nat.sub_sub]
  · simp [hd, hc, hb, show ¬ i - 8 < 8 by omega, show ¬ i - 16 < 8 by omega, Nat.sub_sub]

theorem tau_eq_xor (x : Word) :
    tau x = (sbox (byteOf x 3) ++ 0#24) ^^^ (0#8 ++ sbox (byteOf x 2) ++ 0#16) ^^^ (0#16 ++ sbox (byteOf x 1) ++ 0#8) ^^^
      (0#24 ++ sbox (byteOf x 0)) :=
  append_bytes_eq_xor _ _ _ _

/-- R161: L is linear over exclusive or, and each table holds L of one byte in its place (R127). -/
theorem tVec_gentabTables (x : Word) : tVec gentabTables x = diffuse (tau x) := by
  obtain ⟨-, hbyte⟩ := tablesHoldByteContributions
  obtain ⟨hfirst, -, -, -⟩ := hbyte (byteOf x 3)
  obtain ⟨-, hsecond, -, -⟩ := hbyte (byteOf x 2)
  obtain ⟨-, -, hthird, -⟩ := hbyte (byteOf x 1)
  obtain ⟨-, -, -, hlast⟩ := hbyte (byteOf x 0)
  rw [tVec, hfirst, hsecond, hthird, hlast, tau_eq_xor, diffuse_xor, diffuse_xor, diffuse_xor]

/-- Settles O18: the lookups compute L(tau(x)), and at 0 that word is closed. -/
theorem tableRoundIsLOfTau : Obligations.TableRoundIsLOfTau := by
  refine ⟨tVec_gentabTables, ?_⟩
  rw [tVec_gentabTables]
  decide +kernel

/-! ### The rounds of one block as a sequence -/

/-- The four state words of the block p before round n (R162). A round past the last, which Crypt does not make, takes the key 0. -/
def roundState (t : Tables) (p : Block) (ks : Vector Word 32) : Nat → Block
  | 0 => p
  | n + 1 => cryptRound t (roundState t p ks n) (ks[n]?.getD 0)

/-- X[0..] of R172: the first state word before each round. -/
def blockSequence (t : Tables) (p : Block) (ks : Vector Word 32) (n : Nat) : Word := (roundState t p ks n)[0]

/-- A round moves three words down by one place, so the state is four consecutive words of the sequence. -/
theorem roundState_eq_sequence (t : Tables) (p : Block) (ks : Vector Word 32) (n : Nat) :
    roundState t p ks n =
      #v[blockSequence t p ks n, blockSequence t p ks (n + 1), blockSequence t p ks (n + 2), blockSequence t p ks (n + 3)] := by
  ext j hj
  interval_cases j <;> rfl

theorem blockSequence_start (t : Tables) (p : Block) (ks : Vector Word 32) (j : Fin 4) : blockSequence t p ks j = p[j] := by
  have hstart := roundState_eq_sequence t p ks 0
  rw [roundState] at hstart
  rw [hstart]
  fin_cases j <;> rfl

/-- The recurrence of R172. -/
theorem blockSequence_step (t : Tables) (p : Block) (ks : Vector Word 32) (i : Fin 32) :
    blockSequence t p ks (i + 4) =
      blockSequence t p ks i ^^^
        tVec t (blockSequence t p ks (i + 1) ^^^ blockSequence t p ks (i + 2) ^^^ blockSequence t p ks (i + 3) ^^^ ks[i]) := by
  have hkey : ks[i.val]?.getD 0 = ks[i] := by simp
  have hround : blockSequence t p ks (i + 4) = (cryptRound t (roundState t p ks i) (ks[i.val]?.getD 0))[3] := rfl
  rw [hround, hkey, roundState_eq_sequence]
  rfl

/-- The state before round n is the fold of the rounds before it. -/
theorem roundState_eq_foldl (t : Tables) (p : Block) (ks : Vector Word 32) {n : Nat} (hn : n ≤ 32) :
    roundState t p ks n = (ks.toList.take n).foldl (cryptRound t) p := by
  induction n with
  | zero => rfl
  | succ n ih =>
    have hkey : ks[n]?.getD 0 = ks.toList[n]'(by simpa using hn) := by simp [Nat.lt_of_succ_le hn]
    rw [roundState, ih (by omega), hkey, List.take_succ_eq_append_getElem, List.foldl_append]
    rfl

theorem reverse_words (a b c d : Word) : (#v[a, b, c, d] : Block).reverse = #v[d, c, b, a] := by
  ext j hj
  interval_cases j <;> simp

/-- R165, R172: Crypt gives the last four words of the sequence, in reverse. -/
theorem crypt_eq_sequence (t : Tables) (p : Block) (ks : Vector Word 32) :
    crypt t p ks = #v[blockSequence t p ks 35, blockSequence t p ks 34, blockSequence t p ks 33, blockSequence t p ks 32] := by
  have hall : ks.toList.take 32 = ks.toList := List.take_of_length_le (by simp)
  have hstate : roundState t p ks 32 = ks.toList.foldl (cryptRound t) p := by rw [roundState_eq_foldl t p ks le_rfl, hall]
  rw [crypt, ← hstate, roundState_eq_sequence, reverse_words]

/-- Settles O19: the lane's output is Crypt of its block, whose words are the sequence's. -/
theorem encbInSequenceNotation : Obligations.EncbInSequenceNotation := by
  intro e n b hactive
  refine ⟨blockSequence e.tables e.bin[b] e.rk, blockSequence_start _ _ _, blockSequence_step _ _ _, ?_⟩
  rw [runBatch_forward n e b hactive, crypt_eq_sequence]

/-! ### Inversion and independence -/

/-- The rounds, the state reversed, and the rounds again with the keys in reverse give the block back, reversed: the innermost
pair of rounds undoes itself, and then the next one out. -/
theorem foldl_cryptRound_undo (t : Tables) (ks : List Word) (p : Block) :
    ks.reverse.foldl (cryptRound t) (ks.foldl (cryptRound t) p).reverse = p.reverse := by
  induction ks generalizing p with
  | nil => rfl
  | cons k ks ih =>
    rw [List.foldl_cons, List.reverse_cons, List.foldl_append, ih]
    exact cryptRound_undo t k p

/-- R170, for any tables. -/
theorem crypt_reverse_crypt (t : Tables) (ks : Vector Word 32) (p : Block) : crypt t (crypt t p ks) ks.reverse = p := by
  have hkeys : ks.reverse.toList = ks.toList.reverse := by simp
  rw [crypt, crypt, hkeys, foldl_cryptRound_undo, Vector.reverse_reverse]

/-- Settles O20: Crypt reverses the state after its rounds, which is what the second Crypt starts from. -/
theorem reversedKeysInvertTheCipher : Obligations.ReversedKeysInvertTheCipher := crypt_reverse_crypt

/-- Settles O21: an active lane's output is a fold of rounds over its block, in which no other lane and no number of a lane
occurs. -/
theorem lanesAreIndependent : Obligations.LanesAreIndependent := by
  intro e e' n n' b b' order _ hactive hactive' hblock hkeys htables
  rw [runBatch_bout, runBatch_bout, if_pos hactive, if_pos hactive', hblock, hkeys, htables]

/-! ### ENCB and DECB -/

/-- R204: with valid tables and keys a legal batch length passes the checks of ENCB and DECB. -/
theorem batchError_of_legal {len : Byte} {f : Status} (htables : f.tablesValid = true) (hkeys : f.keysValid = true)
    (hlen : legalBatch len.toNat) : batchError len f = none := by
  simp [batchError, htables, hkeys, (batchLengthOk_iff len).mpr hlen]

/-- R203, R255: a batch command that passes its checks is accepted, and its completion leaves the datapath's output and changes
nothing else but CMD, ERRCODE, the hidden lane registers and round counter, and the counters of the model. -/
theorem batchCommand_runs {i : Instr} {len : Byte} {order : Fin 32 → Fin 32} {s : State}
    (hcomplete : ∀ t : State, t.engine.latch = some i → complete t = .next (completeBatch len order t))
    (hidle : s.engine.status.busy = false) (hchecks : commandError i s.engine.status = none) :
    ∃ t u, exec i s = .next t ∧ t.engine = acceptedEngine i s.engine ∧ complete t = .next u ∧
      u.engine.bout = (runBatch (blockCount len) order (acceptedEngine i s.engine)).bout ∧
      u = { s with
            engine := { s.engine with
              cmd := encode i, latch := none, bout := u.engine.bout,
              status := { s.engine.status with busy := false, errcode := 0 },
              lanes := u.engine.lanes, round := u.engine.round },
            delay := u.delay, draws := u.draws } := by
  refine ⟨_, _, exec_of_ok hidle hchecks, rfl, hcomplete _ rfl, ?_, ?_⟩
  · rw [completeBatch_eq]
    rfl
  · rw [completeBatch_eq]
    rfl

theorem complete_encb {len : Byte} {t : State} (h : t.engine.latch = some (.encb len)) :
    complete t = .next (completeBatch len id t) := by
  rw [complete, h]
  rfl

theorem complete_decb {len : Byte} {t : State} (h : t.engine.latch = some (.decb len)) :
    complete t = .next (completeBatch len Fin.rev t) := by
  rw [complete, h]
  rfl

/-- Settles O12: ENCB takes the round keys in their order, and its issue changes nothing that the datapath reads. -/
theorem encbRuns : Obligations.EncbRuns := by
  intro s len hidle htables hkeys hlen
  obtain ⟨t, u, hexec, haccepted, hcomplete, hbout, hframe⟩ :=
    batchCommand_runs (i := .encb len) (fun _ => complete_encb) hidle (batchError_of_legal htables hkeys hlen)
  refine ⟨t, u, hexec, haccepted, hcomplete, fun b => ?_, hframe⟩
  rw [hbout]
  exact runBatch_forward_result _ _ b

/-- Settles O13: DECB takes the round keys in reverse order, and its issue changes nothing that the datapath reads. -/
theorem decbRuns : Obligations.DecbRuns := by
  intro s len hidle htables hkeys hlen
  obtain ⟨t, u, hexec, haccepted, hcomplete, hbout, hframe⟩ :=
    batchCommand_runs (i := .decb len) (fun _ => complete_decb) hidle (batchError_of_legal htables hkeys hlen)
  refine ⟨t, u, hexec, haccepted, hcomplete, fun b => ?_, hframe⟩
  rw [hbout]
  exact runBatch_backward_result _ _ b

theorem batchResult_of_active {t : Tables} {n : Nat} {bin : Vector Block 8} {ks : Vector Word 32} {b : Fin 8} (h : b.val < n) :
    batchResult t n bin ks b = crypt t bin[b] ks := if_pos h

/-- Settles O22: the completed ENCB leaves the flags, the tables and the round keys, so DECB is accepted and inverts Crypt in every
active lane. -/
theorem decbUndoesEncb : Obligations.DecbUndoesEncb := by
  intro s len hidle htables hkeys hlen
  obtain ⟨t, u, hexec, -, hcomplete, hbout, hframe⟩ := encbRuns s len hidle htables hkeys hlen
  have hstatus : u.engine.status = { s.engine.status with busy := false, errcode := 0 } := congrArg (·.engine.status) hframe
  have htab : u.engine.tables = s.engine.tables := congrArg (·.engine.tables) hframe
  have hrk : u.engine.rk = s.engine.rk := congrArg (·.engine.rk) hframe
  obtain ⟨t', u', hexec', -, hcomplete', hbout', -⟩ :=
    decbRuns { u with engine := { u.engine with bin := u.engine.bout } } len (by simp [hstatus]) (by simp [hstatus, htables])
      (by simp [hstatus, hkeys]) hlen
  refine ⟨t, u, t', u', hexec, hcomplete, hexec', hcomplete', fun b hactive => ?_⟩
  calc u'.engine.bout[b]
      = crypt s.engine.tables u.engine.bout[b] s.engine.rk.reverse := by
        rw [hbout', batchResult_of_active hactive, htab, hrk]
    _ = crypt s.engine.tables (crypt s.engine.tables s.engine.bin[b] s.engine.rk) s.engine.rk.reverse := by
        rw [hbout, batchResult_of_active hactive]
    _ = s.engine.bin[b] := crypt_reverse_crypt _ _ _

end Sys2Proof.Machine
end

section
/-! PROOFS. The statements of 60_exceptions.md: issue, its order of checks and its rejections (R202–R210), a machine that goes on and
commands that end (R200, R211), and the host's partition procedure and driver (R226–R232). -/

namespace Sys2Proof.Machine

open Sys2Proof.Claims Partitioner

/-! ### Rejection -/

/-- R202: a rejection leaves the word in CMD, the code in ERRCODE and its bit in STICKY. -/
theorem reject_storeCmd_eq (e : ErrorCode) (w : Word) (s : State) :
    reject e (s.storeCmd w) = { s with engine := rejectedEngine w e.code.toNat s.engine } := by
  cases e <;> rfl

theorem exec_rejected {i : Instr} {s : State} {e : ErrorCode} (hb : s.engine.status.busy = false)
    (he : commandError i s.engine.status = some e) :
    exec i s = .next { s with engine := rejectedEngine (encode i) e.code.toNat s.engine } := by
  rw [exec_of_error hb he, reject_storeCmd_eq]

/-! ### The checks of each command (R206–R209) -/

theorem commandError_of_noTables {i : Instr} {f : Status} (hi : i ≠ .gentab) (h : f.tablesValid = false) :
    commandError i f = some .uninitializedTables := by
  cases i with
  | gentab => exact absurd rfl hi
  | derive len => simp [commandError, deriveError, h]
  | encb len => simp [commandError, batchError, h]
  | decb len => simp [commandError, batchError, h]

theorem deriveError_of_length {len : Byte} {f : Status} (htables : f.tablesValid = true) (hlen : len ≠ 16) :
    deriveError len f = some .invalidKeyLength := by
  have hcheck : keyLengthOk len = false := beq_false_of_ne hlen
  simp [deriveError, htables, hcheck]

theorem batchError_of_illegal {len : Byte} {f : Status} (htables : f.tablesValid = true) (hlen : ¬ legalBatch len.toNat) :
    batchError len f = some .invalidBlockCount := by
  have hcheck : batchLengthOk len = false := Bool.eq_false_of_not_eq_true (hlen ∘ (batchLengthOk_iff len).mp)
  simp [batchError, htables, hcheck]

theorem batchError_of_noKeys {len : Byte} {f : Status} (htables : f.tablesValid = true) (hlen : legalBatch len.toNat)
    (hkeys : f.keysValid = false) : batchError len f = some .uninitializedKeys := by
  simp [batchError, htables, (batchLengthOk_iff len).mpr hlen, hkeys]

/-- The checks of ENCB and DECB are the same (R204). -/
theorem commandError_of_batch {i : Instr} {len : Byte} (h : i = .encb len ∨ i = .decb len) (f : Status) :
    commandError i f = batchError len f := by
  rcases h with rfl | rfl <;> rfl

/-- R208: the lengths that are rejected are those that are no batch length. -/
theorem not_legalBatch_of_rejected {len : Byte} (h : len = 0 ∨ len.toNat % 16 ≠ 0 ∨ len.toNat > 128) :
    ¬ legalBatch len.toNat := by
  rintro ⟨hmod, hmin, hmax⟩
  rcases h with rfl | hmod' | hmax'
  · exact absurd hmin (by decide)
  · exact hmod' hmod
  · omega

/-- Settles O7: each form fails the check of its rule, and a failed check is R202's rejection. -/
theorem rejectedForms : Obligations.RejectedForms := by
  intro s hb
  refine ⟨fun i hi htables => exec_rejected hb (commandError_of_noTables hi htables),
    fun len htables hlen => exec_rejected (i := .derive len) hb (deriveError_of_length htables hlen),
    fun i len hi htables hlen => exec_rejected hb (e := .invalidBlockCount) ?_,
    fun i len hi htables hlen hkeys => exec_rejected hb (e := .uninitializedKeys) ?_⟩
  · rw [commandError_of_batch hi, batchError_of_illegal htables (not_legalBatch_of_rejected hlen)]
  · rw [commandError_of_batch hi, batchError_of_noKeys htables hlen hkeys]

/-! ### Illegal words -/

/-- R98, R205: the decoder's error cases are the illegal words. -/
theorem illegalWord_of_decode_error {w : Word} {err : DecodeError} (h : decode w = .error err) : illegalWord w := by
  simp only [decode, ne_eq, ← BitVec.toNat_inj, rsv1Field_toNat, rsv0Field_toNat, opField_toNat, lenField_toNat,
    BitVec.ofNat_eq_ofNat, BitVec.reduceToNat] at h
  split_ifs at h
  all_goals
    simp only [illegalWord, wordOp, wordLen]
    omega

theorem decode_error_iff (w : Word) : (∃ err, decode w = .error err) ↔ illegalWord w := by
  constructor
  · rintro ⟨err, h⟩
    exact illegalWord_of_decode_error h
  · intro h
    cases hd : decode w with
    | error err => exact ⟨err, rfl⟩
    | ok i =>
      obtain ⟨hlegal, _⟩ := decode_ok_fields hd
      exact absurd h hlegal

theorem hostWrite_cmd (w : Word) (s : State) : hostWrite 0x0000 w s = answered .done (issueWord w s) :=
  hostWrite_offset (r := .cmd) rfl w s

theorem hostWrite_illegal {w : Word} {s : State} {err : DecodeError} (hd : decode w = .error err)
    (hb : s.engine.status.busy = false) :
    hostWrite 0x0000 w s = .next { s with engine := rejectedEngine w 1 s.engine, responses := .done :: s.responses } := by
  have hissue : issueWord w s = .next (reject .illegalCommand (s.storeCmd w)) := by
    simp only [issueWord, hd, issueIllegal, issue_of_error hb]
  rw [hostWrite_cmd, hissue, reject_storeCmd_eq]
  rfl

/-- Settles O5: the illegal words are the decoder's error cases, and an idle engine rejects them with code 1. -/
theorem illegalWordsRejected : Obligations.IllegalWordsRejected := by
  refine ⟨decode_error_iff, fun w s hw hb => ?_⟩
  obtain ⟨err, hd⟩ := (decode_error_iff w).mpr hw
  exact hostWrite_illegal hd hb

/-! ### The order of checks (R204) -/

/-- ERRCODE for the outcome of the checks: 0 where none fails (R201). -/
def codeOf : Option ErrorCode → Nat
  | none => 0
  | some e => e.code.toNat

theorem codeAtIssue_illegal {w : Word} (h : illegalWord w) (f : Status) (code : Nat) : CodeAtIssue w f code ↔ code = 1 := by
  simp [CodeAtIssue, h]

/-- R204 for a word whose OP is DERIVE's. -/
theorem codeAtIssue_derive {w : Word} {len : Byte} (hlegal : ¬ illegalWord w) (hop : wordOp w = 2) (hlen : wordLen w = len.toNat)
    (f : Status) (code : Nat) : CodeAtIssue w f code ↔ code = codeOf (deriveError len f) := by
  simp only [CodeAtIssue, hlegal, hop, hlen]
  cases htables : f.tablesValid with
  | false => simp [deriveError, htables, codeOf, ErrorCode.code]
  | true =>
    by_cases h16 : len = 16
    · rw [h16, deriveError_of_tablesValid htables]
      simp [codeOf]
    · have hn : len.toNat ≠ 16 := fun h => h16 (BitVec.eq_of_toNat_eq h)
      simp [hn, deriveError_of_length htables h16, codeOf, ErrorCode.code]

/-- R204 for a word whose OP is ENCB's or DECB's. -/
theorem codeAtIssue_batch {w : Word} {len : Byte} (hlegal : ¬ illegalWord w) (hop : wordOp w = 3 ∨ wordOp w = 4)
    (hlen : wordLen w = len.toNat) (f : Status) (code : Nat) : CodeAtIssue w f code ↔ code = codeOf (batchError len f) := by
  have h1 : wordOp w ≠ 1 := by omega
  have h2 : wordOp w ≠ 2 := by omega
  simp only [CodeAtIssue, hlegal, h1, h2, hop, hlen, ne_eq, not_false_eq_true]
  cases htables : f.tablesValid with
  | false => simp [batchError, htables, codeOf, ErrorCode.code]
  | true =>
    by_cases hlegalLen : legalBatch len.toNat
    · cases hkeys : f.keysValid with
      | false => simp [hlegalLen, batchError_of_noKeys htables hlegalLen hkeys, codeOf, ErrorCode.code]
      | true => simp [hlegalLen, batchError_of_legal htables hkeys hlegalLen, codeOf]
    · simp [hlegalLen, batchError_of_illegal htables hlegalLen, codeOf, ErrorCode.code]

/-- The checks of R204, read off the bits of a word that decodes, are those of its command. -/
theorem codeAtIssue_of_decode {w : Word} {i : Instr} (hd : decode w = .ok i) (f : Status) (code : Nat) :
    CodeAtIssue w f code ↔ code = codeOf (commandError i f) := by
  obtain ⟨hlegal, hop, hlen⟩ := decode_ok_fields hd
  cases i with
  | gentab =>
    have h1 : wordOp w = 1 := hop
    simp [CodeAtIssue, hlegal, h1, commandError, codeOf]
  | derive len => exact codeAtIssue_derive hlegal hop hlen f code
  | encb len => exact codeAtIssue_batch hlegal (.inl hop) hlen f code
  | decb len => exact codeAtIssue_batch hlegal (.inr hop) hlen f code

theorem codeAtIssue_total (w : Word) (f : Status) : ∃ code, CodeAtIssue w f code := by
  cases hd : decode w with
  | error err => exact ⟨1, (codeAtIssue_illegal (illegalWord_of_decode_error hd) f 1).mpr rfl⟩
  | ok i => exact ⟨_, (codeAtIssue_of_decode hd f _).mpr rfl⟩

theorem hostWrite_of_busy (w : Word) {s : State} (hb : s.engine.status.busy = true) :
    hostWrite 0x0000 w s = .next { s with engine := droppedEngine s.engine, responses := .done :: s.responses } := by
  rw [hostWrite_cmd, issueWord_of_busy w hb, dropWrite_eq]
  rfl

/-- R202: a code other than 0 is that of a failed check, and an idle engine rejects the word with it. -/
theorem hostWrite_rejected {w : Word} {s : State} {code : Nat} (hb : s.engine.status.busy = false)
    (hc : CodeAtIssue w s.engine.status code) (h0 : code ≠ 0) :
    hostWrite 0x0000 w s = .next { s with engine := rejectedEngine w code s.engine, responses := .done :: s.responses } := by
  cases hd : decode w with
  | error err =>
    rw [(codeAtIssue_illegal (illegalWord_of_decode_error hd) _ _).mp hc]
    exact hostWrite_illegal hd hb
  | ok i =>
    have hcode := (codeAtIssue_of_decode hd _ _).mp hc
    cases he : commandError i s.engine.status with
    | none =>
      rw [he] at hcode
      exact absurd hcode h0
    | some e =>
      rw [he] at hcode
      rw [hostWrite_command hd, exec_rejected hb he, encode_of_decode hd, hcode]
      rfl

/-- An error's code is not 0, the code of acceptance (R201). -/
theorem code_ne_zero (e : ErrorCode) : e.code.toNat ≠ 0 := by
  cases e <;> decide

/-- R203: code 0 is that of a command whose checks all pass. -/
theorem commandError_of_code_zero {w : Word} {f : Status} (hc : CodeAtIssue w f 0) :
    ∃ i, decode w = .ok i ∧ commandError i f = none := by
  cases hd : decode w with
  | error err => cases (codeAtIssue_illegal (illegalWord_of_decode_error hd) _ _).mp hc
  | ok i =>
    have hcode := (codeAtIssue_of_decode hd _ _).mp hc
    cases he : commandError i f with
    | none => exact ⟨i, rfl, he⟩
    | some e =>
      rw [he] at hcode
      exact absurd hcode.symm (code_ne_zero e)

/-- Settles O6: the code fixes the outcome of the command's checks, and with it the end of the issue. -/
theorem issueFollowsTheOrderOfChecks : Obligations.IssueFollowsTheOrderOfChecks := by
  refine ⟨codeAtIssue_total, fun w s => ⟨hostWrite_of_busy w, fun hb code => hostWrite_rejected hb, fun hb hc => ?_⟩⟩
  obtain ⟨i, hd, hi⟩ := commandError_of_code_zero hc
  have hwrite := hostWrite_command hd s
  rw [exec_of_ok hb hi] at hwrite
  have hword := encode_of_decode hd
  exact ⟨i, _, hd, hwrite, hword, rfl⟩

/-! ### The frame of issue -/

/-- CMD, STATUS and the latch are behind no register but CMD and STATUS. -/
theorem readReg_of_issue (g : Engine) (cmd : Word) (status : Status) (latch : Option Instr) {r : Reg} (hcmd : r ≠ .cmd)
    (hstatus : r ≠ .status) : { g with cmd := cmd, status := status, latch := latch }.readReg r = g.readReg r := by
  cases r with
  | cmd => exact absurd rfl hcmd
  | status => exact absurd rfl hstatus
  | _ => rfl

/-- R202, R203, R210: all that an issue can change, whichever its end. -/
theorem exec_frame {i : Instr} {s t : State} (h : exec i s = .next t) :
    t = { s with
          engine := { s.engine with
            cmd := if s.engine.status.busy then s.engine.cmd else encode i
            status := t.engine.status
            latch := t.engine.latch }
          delay := t.delay, draws := t.draws } ∧
      t.engine.status.tablesValid = s.engine.status.tablesValid ∧ t.engine.status.keysValid = s.engine.status.keysValid := by
  rcases exec_cases h with ⟨hb, rfl⟩ | ⟨hb, e, _, rfl⟩ | ⟨hb, _, rfl⟩ <;> rw [hb] <;> exact ⟨rfl, rfl, rfl⟩

/-- Settles O9: what an issue can change is CMD, STATUS, the latch and the counters of the model. -/
theorem issueFrame : Obligations.IssueFrame := by
  intro i s t h
  obtain ⟨ht, htables, hkeys⟩ := exec_frame h
  rw [ht] at htables hkeys ⊢
  exact ⟨fun r => readReg_of_issue _ _ _ _, rfl, htables, hkeys, rfl, rfl, rfl, rfl, rfl, rfl, rfl, rfl, rfl, rfl⟩

/-! ### The machine goes on, and commands end -/

/-- Settles O52: a busy engine has a command latched, the one case in which a step could stop. -/
theorem theMachineNeverStops : Obligations.TheMachineNeverStops := fun _ hs =>
  step_goes_on fun hb => hs.latch_iff_busy.trans hb

/-- A host's turn on a busy engine is one turn less to wait (log 6). -/
theorem step_outside_delay {s t : State} {i : Input} {rest : List Input} (hb : s.engine.status.busy = true)
    (ht : s.turn = .outside i rest) (h : step s = .next t) : t.delay = s.delay - 1 := by
  rw [step_outside ht] at h
  cases i with
  | access a =>
    obtain ⟨_, hdelay⟩ := hostAccess_frame h
    exact hdelay hb
  | poll =>
    injection h with h
    rw [← h, pollStatus_delay, takeInput_delay]
  | reset =>
    injection h with h
    rw [← h, resetEngine_delay, takeInput_delay]

/-- A step of a busy engine ends the command, or leaves one host turn less to wait. -/
theorem step_of_busy {s t : State} (hb : s.engine.status.busy = true) (h : step s = .next t) :
    t.engine.status.busy = false ∨ s.delay = t.delay + 1 := by
  cases ht : s.turn with
  | completion =>
    have hc : complete s = .next t := by rw [← h, step, nextEvent, ht]
    exact .inl (complete_busy hc)
  | outside i rest =>
    obtain ⟨_, hdelay⟩ := turn_outside ht
    have hpos := hdelay hb
    have hless := step_outside_delay hb ht h
    exact .inr (by omega)
  | idle =>
    obtain ⟨_, hidle⟩ := turn_idle ht
    cases hidle.symm.trans hb

/-- Settles O46, by induction on the delay: each step ends the command or shortens the wait. -/
theorem runningCommandEnds : Obligations.RunningCommandEnds := by
  intro s hs hb
  induction hd : s.delay generalizing s with
  | zero =>
    obtain ⟨t, ht⟩ := theMachineNeverStops s hs
    have hend := (step_of_busy hb ht).resolve_right (by omega)
    exact ⟨1, t, by omega, by rw [runSteps, ht]; rfl, hend⟩
  | succ d ih =>
    obtain ⟨t, ht⟩ := theMachineNeverStops s hs
    cases htb : t.engine.status.busy with
    | false => exact ⟨1, t, by omega, by rw [runSteps, ht]; rfl, htb⟩
    | true =>
      have hless := (step_of_busy hb ht).resolve_left (by simp [htb])
      obtain ⟨n, u, hn, hu, hend⟩ := ih t (everyStepKeepsTheInvariant s t hs ht) htb (by omega)
      exact ⟨n + 1, u, by omega, by rw [runSteps, ht]; exact hu, hend⟩

/-! ### The partition (R228) -/

theorem count_eq (batches workers w : Nat) :
    count batches workers w = if w < batches % workers then batches / workers + 1 else batches / workers := by
  unfold count
  split <;> rfl

/-- The batches of the first n workers are those before worker n's first. -/
theorem sum_count (batches workers n : Nat) : ((List.range n).map (count batches workers)).sum = start batches workers n := by
  induction n with
  | zero => simp [start]
  | succ n ih => rw [List.range_succ, List.map_append, List.sum_append, ih, start_succ]; rfl

theorem count_le_succ (batches workers w w' : Nat) : count batches workers w ≤ count batches workers w' + 1 := by
  rw [count_eq, count_eq]
  split <;> split <;> omega

/-- Settles O55: each range ends where the next starts, and the range after the last would start at the end. -/
theorem partitionCoversTheBatches : Obligations.PartitionCoversTheBatches := by
  intro batches workers h1
  refine ⟨fun w _ => ⟨count_eq batches workers w, rfl⟩, by simp [start], fun w _ => start_succ batches w workers, ?_,
    fun w w' _ _ => count_le_succ batches workers w w'⟩
  rw [sum_count, start_all batches h1]

/-! ### The driver's checks (R226, R232) -/

theorem totalBlocks_ok {bytes : Nat} (h : bytes % 16 = 0) : totalBlocks bytes = .ok (bytes / 16) := if_pos h

/-- R232: the check passes where every engine to be used has both valid flags and any two have the same key. -/
theorem ready_iff (used : Nat) (sys : System) :
    sys.ready used = true ↔ ∀ s ∈ sys.engines.take used,
      s.engine.status.tablesValid = true ∧ s.engine.status.keysValid = true ∧
        ∀ s' ∈ sys.engines.take used, s'.engine.masterKey = s.engine.masterKey := by
  simp only [System.ready, List.all_eq_true, Bool.and_eq_true, decide_eq_true_eq, and_assoc]

/-- A whole number of blocks is processed just where the check of the engines passes. -/
theorem processBuffer_of_blocks {bytes : List Byte} (h : bytes.length % 16 = 0) (d : Direction) (requested : Option Nat)
    (first last : List Nat) (sys : System) :
    processBuffer d bytes requested first last sys =
      if sys.ready (workerCount sys.engines.length requested) then
        .ok ((runJob ⟨d, blocksOfBytes bytes, workerCount sys.engines.length requested⟩ first last sys).map
          fun out => out.flatMap bytesOfBlock)
      else .error .notReady := by
  simp only [processBuffer, totalBlocks_ok h]

/-- Settles O57: the two checks come first, and the second reads the engines to be used alone. -/
theorem driverChecksFirst : Obligations.DriverChecksFirst := by
  intro d bytes requested first last sys
  refine ⟨fun h => ?_, fun h hbad => ?_, fun unused n hn => ?_⟩
  · have herror : totalBlocks bytes.length = .error .invalidBlockCount := if_neg h
    simp only [processBuffer, herror]
  · obtain ⟨s, s', hs, hs', hfail⟩ := hbad
    rw [processBuffer_of_blocks h, if_neg]
    intro hready
    obtain ⟨htables, hkeys, hmk⟩ := (ready_iff _ sys).mp hready s hs
    rcases hfail with hfail | hfail | hfail
    · cases hfail.symm.trans htables
    · cases hfail.symm.trans hkeys
    · exact hfail (hmk s' hs')
  · simp only [System.ready, List.take_append_of_le_length hn]

/-! ### The driver's output (R229–R231) -/

theorem workerCount_pos (n : Nat) (requested : Option Nat) : 1 ≤ workerCount n requested := Nat.le_max_left 1 _

/-- R227: with an engine there is at most one worker for each. -/
theorem workerCount_le {n : Nat} (h : 1 ≤ n) (requested : Option Nat) : workerCount n requested ≤ n :=
  Nat.max_le.mpr ⟨h, Nat.min_le_left _ _⟩

/-- The output of R231 is what an engine with GENTAB's tables and the schedule of mk makes of the block. -/
theorem blockThrough_eq_outputBlock (d : Direction) (mk : Block) :
    blockThrough d gentabTables (keySchedule mk) = outputBlock d mk := by
  funext p
  cases d <;> rfl

/-- An engine of the driver: prepared, with both valid flags. -/
def DriverEngine (mk : Block) (s : State) : Prop :=
  Prepared mk s ∧ s.engine.status.tablesValid = true ∧ s.engine.status.keysValid = true

theorem ready_of_driverEngines {mk : Block} {used : Nat} {sys : System}
    (h : ∀ s, s ∈ sys.engines.take used → DriverEngine mk s) : sys.ready used = true := by
  refine (ready_iff used sys).mpr fun s hs => ?_
  obtain ⟨⟨_, _, hmk, _⟩, htables, hkeys⟩ := h s hs
  refine ⟨htables, hkeys, fun s' hs' => ?_⟩
  obtain ⟨⟨_, _, hmk', _⟩, _, _⟩ := h s' hs'
  rw [hmk, hmk']

theorem idle_iff (s : State) : s.idle = true ↔ s.inputs = [] ∧ s.engine.status.busy = false := by
  simp [State.idle]

/-- The invariant fixes the tables of a driver's engine, and its preparation the round keys. -/
theorem DriverEngine.free {mk : Block} {s : State} (h : DriverEngine mk s) :
    Free s ∧ s.engine.tables = gentabTables ∧ s.engine.rk = keySchedule mk := by
  obtain ⟨⟨hs, hidle, _, hrk⟩, htables, hkeys⟩ := h
  obtain ⟨hinputs, hbusy⟩ := (idle_iff s).mp hidle
  exact ⟨⟨⟨hbusy, htables, hkeys⟩, hinputs⟩, hs.tables_valid htables, hrk⟩

theorem jobReady_of_driverEngines {mk : Block} {job : Job} {sys : System} (hlen : job.workers ≤ sys.engines.length)
    (h : ∀ s, s ∈ sys.engines.take job.workers → DriverEngine mk s) : JobReady job sys gentabTables (keySchedule mk) :=
  ⟨hlen, fun j s hj hs => by
    obtain ⟨hjl, rfl⟩ := List.getElem?_eq_some_iff.mp hs
    exact (h _ (List.mem_take_iff_getElem.mpr ⟨j, by omega, rfl⟩)).free⟩

/-- Settles O58: the check of R232 passes, a job that ends is blockwise whatever the orders, and orders exist in which it ends. -/
theorem driverOutputIsBlockwise : Obligations.DriverOutputIsBlockwise := by
  intro d mk bytes requested sys hbytes hne hprepared
  have hready := ready_of_driverEngines (mk := mk) hprepared
  have hone := workerCount_pos sys.engines.length requested
  have hjob : JobReady ⟨d, blocksOfBytes bytes, workerCount sys.engines.length requested⟩ sys gentabTables (keySchedule mk) :=
    jobReady_of_driverEngines (workerCount_le (List.length_pos_iff.mpr hne) requested) hprepared
  have hblocks {first last out} (h : runJob ⟨d, blocksOfBytes bytes, workerCount sys.engines.length requested⟩ first last sys =
      some out) : out.flatMap bytesOfBlock = outputBytes d mk bytes := by
    rw [runJob_output hone hjob h, blockThrough_eq_outputBlock, List.flatMap_map]
    rfl
  refine ⟨fun first last out h => ?_, ?_⟩
  · rw [processBuffer_of_blocks hbytes, if_pos hready] at h
    injection h with h
    obtain ⟨blocks, hrun, rfl⟩ := Option.map_eq_some_iff.mp h
    exact hblocks hrun
  · obtain ⟨first, last, out, hrun⟩ := runJob_ends hone hjob
    exact ⟨first, last, by rw [processBuffer_of_blocks hbytes, if_pos hready, hrun, Option.map_some, hblocks hrun]⟩

end Sys2Proof.Machine
end

section
/-! PROOFS. The statements of 70_reset_and_hazards.md: when a completion comes (R255), the reset event (R240) and what the engine
accepts after it (R242). -/

namespace Sys2Proof.Machine

open Sys2Proof.Claims

/-! ### Completion -/

theorem step_completion {s : State} (h : s.turn = .completion) : step s = complete s := by
  simp only [step, nextEvent, h]

/-- The other turns cannot be: an idle one needs BUSY = 0, the outside's an input and, on a busy engine, a delay (log 6). -/
theorem turn_completion_of_busy {s : State} (hb : s.engine.status.busy = true) (hend : s.inputs = [] ∨ s.delay = 0) :
    s.turn = .completion := by
  cases ht : s.turn with
  | completion => rfl
  | outside i rest =>
    obtain ⟨hinputs, hdelay⟩ := turn_outside ht
    rcases hend with hnil | hzero
    · cases hnil.symm.trans hinputs
    · exact absurd hzero (hdelay hb)
  | idle =>
    obtain ⟨_, hidle⟩ := turn_idle ht
    cases hidle.symm.trans hb

/-- Settles O44: a completion's turn is a busy engine's, and a busy engine with nothing left to wait for has that turn. -/
theorem completionStep : Obligations.CompletionStep := fun _ =>
  ⟨fun ht => ⟨turn_completion_busy ht, step_completion ht⟩, turn_completion_of_busy⟩

/-! ### Reset -/

theorem step_reset {s : State} {rest : List Input} (ht : s.turn = .outside .reset rest) :
    step s = .next (resetEngine (s.takeInput rest)) :=
  step_outside ht

/-- R41: every bit of the STATUS word is 0 after reset, the reserved ones too (R30). -/
theorem status_reset_word : Status.reset.word = 0 := by decide

theorem reset_masterKey (j : Fin 4) : Engine.reset.masterKey[j] = 0 := Vector.getElem_replicate j.isLt

/-- BIN and BOUT are 0 in each word of each block (R41). -/
theorem replicate_block_word (b : Fin 8) (j : Fin 4) :
    (Vector.replicate 8 (Vector.replicate 4 (0 : Word)))[b][j] = 0 := by
  simp only [Fin.getElem_fin, Vector.getElem_replicate]

/-- Settles O53: the event leaves the engine of R41, and takes one input. -/
theorem resetEvent : Obligations.ResetEvent := fun _ _ ht =>
  ⟨_, step_reset ht, rfl, rfl, status_reset_word, rfl, reset_masterKey,
    fun b j => ⟨replicate_block_word b j, replicate_block_word b j⟩, rfl, rfl, rfl⟩

/-- R240: the engine a reset event leaves. -/
theorem engine_after_reset {s t : State} (h : resetNext s) (hstep : step s = .next t) : t.engine = Engine.reset := by
  obtain ⟨rest, ht⟩ := h
  rw [step_reset ht] at hstep
  injection hstep with hstep
  rw [← hstep, resetEngine_engine]

/-- Settles O54: the engine of R41 is idle, and its tables are not valid. -/
theorem afterResetOnlyGentab : Obligations.AfterResetOnlyGentab := by
  intro s t i hreset hstep
  have hengine := engine_after_reset hreset hstep
  have hb : t.engine.status.busy = false := by rw [hengine]; rfl
  have htables : t.engine.status.tablesValid = false := by rw [hengine]; rfl
  obtain ⟨u, _, hexec, haccepted, _⟩ := gentabRuns t hb
  exact ⟨⟨u, hexec, haccepted⟩, fun hi => exec_rejected hb (commandError_of_noTables hi htables)⟩

end Sys2Proof.Machine
end
